-- ==== Sys2Proof/Word.lean ====
section
/-! DEFINITION. The word: a signed integer of W bits (00_scope.md R6). A memory word, an opcode, an address field, an
operand or an ALU result is held as the integer it stands for (R6, R10, R12), an `Int`; that it lies in the W-bit range is
`InWord`, which the invariant of the machine states of every word of the state (log 8). -/

namespace Sys2Proof

/-- The least W-bit signed value, `-2^(W-1)` (R6). -/
def minWord (w : Nat) : Int := -((2 ^ (w - 1) : Nat) : Int)

/-- The greatest W-bit signed value, `2^(W-1) - 1` (R6). -/
def maxWord (w : Nat) : Int := ((2 ^ (w - 1) : Nat) : Int) - 1

/-- `v` is in the W-bit two's-complement range `[-2^(W-1), 2^(W-1) - 1]` (R6). -/
abbrev InWord (w : Nat) (v : Int) : Prop := minWord w ≤ v ∧ v ≤ maxWord w

end Sys2Proof
end

