-- ==== Sys2Proof/Config.lean ====
section
/-! DEFINITION. The implementation parameters of 00_scope.md R6, R7 and R8. A model takes them as an argument; this
model carries them as constant plain data in `State.cfg` (log 1), so that a statement about every state is a statement
about every configuration. The spec leaves no result undefined, so there is no free value here. -/

namespace Sys2Proof

/-- OVERFLOW_MODE (R8): what Add and Mul do when the exact result is outside the word range. -/
inductive OverflowMode where
  | wrap      -- WRAP: reduced modulo 2^W to the word range
  | checked   -- CHECKED: OverflowError
  deriving DecidableEq, Repr

/-- The parameters of one block (R6, R7, R8). -/
structure Config where
  /-- WORD_BITS, written W (R6). -/
  wordBits : Nat
  /-- MEM_DEPTH, the words of physical storage (R7). -/
  memDepth : Nat
  /-- OVERFLOW_MODE (R8). -/
  overflowMode : OverflowMode
  deriving DecidableEq, Repr

/-- The bounds the spec puts on the parameters: `W ≥ 8` (R6) and `3 ≤ MEM_DEPTH ≤ 2^(W-1) - 4` (R7). -/
abbrev Config.Legal (c : Config) : Prop :=
  8 ≤ c.wordBits ∧ 3 ≤ c.memDepth ∧ c.memDepth + 4 ≤ 2 ^ (c.wordBits - 1)

/-- The reference configuration: W = 64 (R6) and WRAP (R8). DESIGN CHOICE, unsafe (log 3): the spec gives no reference
MEM_DEPTH; this is the greatest it allows at W = 64 (R7). -/
def Config.reference : Config :=
  { wordBits := 64, memDepth := 9223372036854775804, overflowMode := .wrap }

end Sys2Proof
end

