-- ==== Sys2Proof/Syntax.lean ====
section
/-! DEFINITION. The instructions of AOC-3OP: one constructor per row of spec/opcode_table.json. -/

namespace Sys2Proof

/-- An instruction as it stands in memory (30_encoding.md R55, R56, R57). `p1` and `p2` are the addresses of the source
operands, dereferenced when the instruction runs; `p3` is the destination address (R58). DEDUCED, safe (log 11): the
decoded latch of R25 holds the operand values in place of `p1` and `p2`; it lives inside one step only. -/
inductive Instr where
  /-- `add p1, p2, p3`, opcode 1, format A4 (R84). -/
  | add (p1 p2 p3 : Int)
  /-- `mul p1, p2, p3`, opcode 2, format A4 (R85). -/
  | mul (p1 p2 p3 : Int)
  /-- `halt`, opcode 99, format H1 (R90). -/
  | halt
  deriving DecidableEq, Repr

end Sys2Proof
end

