-- ==== Sys2Proof/WellFormed.lean ====
section
/-! DEFINITION. Which instructions can stand in a memory of W-bit words. -/

namespace Sys2Proof

/-- Each field of an instruction is one whole W-bit word (30_encoding.md R53, R56), so each address field lies in the
W-bit range. An address field may hold any word value; whether it is in bounds is checked only when it is used (R58). -/
def Instr.wellFormed (w : Nat) : Instr → Bool
  | .add p1 p2 p3 => decide (InWord w p1) && decide (InWord w p2) && decide (InWord w p3)
  | .mul p1 p2 p3 => decide (InWord w p1) && decide (InWord w p2) && decide (InWord w p3)
  | .halt => true

end Sys2Proof
end

