-- ==== Sys2Proof/Decode.lean ====
section
/-! DEFINITION. The decoder, total on any sequence of words, and the encoder (30_encoding.md). -/

namespace Sys2Proof

/-- add-code (00_scope.md R9, 30_encoding.md R55). -/
def addCode : Int := 1

/-- multiply-code (R9, R55). -/
def mulCode : Int := 2

/-- halt-code (R9, R55). -/
def haltCode : Int := 99

/-- Why a sequence of words is not an instruction. -/
inductive DecodeReject where
  /-- There is no opcode word. -/
  | noOpcode
  /-- The opcode word is not exactly 1, 2 or 99; it carries the value (R60). -/
  | illegalOpcode (op : Int)
  /-- The opcode is 1 or 2 and fewer than three words follow it (R56). -/
  | missingOperand (op : Int)
  deriving DecidableEq, Repr

/-- How many words follow the opcode word: 3 for 1 and 2, none for 99; any other value is illegal and has no length
(R59, R60, R61). The opcode is compared whole, as a signed value (R54). -/
def operandCount (op : Int) : Option Nat :=
  if op = addCode then some 3
  else if op = mulCode then some 3
  else if op = haltCode then some 0
  else none

/-- The instruction at the head of a sequence of words, with the words after it (R55 to R60). -/
def decode : List Int → Except DecodeReject (Instr × List Int)
  | [] => .error .noOpcode
  | op :: rest =>
    if op = addCode then
      match rest with
      | p1 :: p2 :: p3 :: after => .ok (.add p1 p2 p3, after)
      | _ => .error (.missingOperand op)
    else if op = mulCode then
      match rest with
      | p1 :: p2 :: p3 :: after => .ok (.mul p1 p2 p3, after)
      | _ => .error (.missingOperand op)
    else if op = haltCode then .ok (.halt, rest)
    else .error (.illegalOpcode op)

/-- The words of an instruction, the opcode first (R55, R56, R57). -/
def encode : Instr → List Int
  | .add p1 p2 p3 => [addCode, p1, p2, p3]
  | .mul p1 p2 p3 => [mulCode, p1, p2, p3]
  | .halt => [haltCode]

/-- `zext_W` of 00_scope.md R10: the W-bit pattern of a word. -/
def patternOfWord (w : Nat) (v : Int) : BitVec w := BitVec.ofInt w v

/-- `sext_W` of R10: a W-bit pattern read as two's complement. -/
def wordOfPattern {w : Nat} (u : BitVec w) : Int := u.toInt

/-- Bits `[W*k+W-1 : W*k]` of a number: word `k` of an instruction whose bits are numbered as spec/opcode_table.json
numbers them, bit 0 the least significant bit of the first word (log 13). -/
def tablePattern (w n k : Nat) : BitVec w := BitVec.ofNat w (n >>> (w * k))

/-- The four words (the longest instruction) of a table number of `nbits` bits; the bits above are 0. -/
def tableWords (w nbits n : Nat) : List Int :=
  [0, 1, 2, 3].map fun k => wordOfPattern (tablePattern w (n % 2 ^ nbits) k)

/-- The number whose bits are those words, the first word lowest. -/
def tableNumber (w : Nat) : List Int → Nat
  | [] => 0
  | v :: vs => (patternOfWord w v).toNat + 2 ^ w * tableNumber w vs

/-- The instruction in a table number at word width `w`, none where the decoder refuses it. -/
def decodeTable (w nbits n : Nat) : Option Instr :=
  match decode (tableWords w nbits n) with
  | .ok (i, _) => some i
  | .error _ => none

/-- The instruction in a table number at the reference width (R62). -/
def decodeTableWord (nbits w : Nat) : Option Instr :=
  decodeTable Config.reference.wordBits nbits w

end Sys2Proof
end

