-- ==== Sys2Proof/Machine/Flags.lean ====
section
/-! DEFINITION. The block has no status flags, condition codes or predicates, and no instruction writes one (10_state.md
R26). The one condition its arithmetic computes is the range check of 41_arithmetic.md R83. -/

namespace Sys2Proof.Machine

/-- The exact result is outside the word range: `exact < -2^(W-1)` or `exact > 2^(W-1) - 1` (R83). -/
def overflows (w : Nat) (exact : Int) : Bool := decide (exact < minWord w) || decide (maxWord w < exact)

/-- `wrap_W(v)`: the integer in the word range congruent to v modulo 2^W (00_scope.md R10). -/
def wrapWord (w : Nat) (v : Int) : Int := Int.bmod v (2 ^ w)

end Sys2Proof.Machine
end

