-- ==== Sys2Proof/Machine/State.lean ====
section
/-! DEFINITION. The state of the block, complete as 10_state.md R34 lists it, and why a step can stop. -/

namespace Sys2Proof.Machine

/-- RS, the run state (10_state.md R19). -/
inductive RunState where
  | idle
  | running
  | halted
  | failed
  deriving DecidableEq, Repr

/-- FAULT_CAUSE (R21). -/
inductive FaultCause where
  | none
  | decode
  | bounds
  | overflow
  deriving DecidableEq, Repr

/-- The accesses a FAULT_ACCESS code 1 to 6 names (R22). Code 0, NONE, is the absence of one; code 7 is never written. -/
inductive Access where
  /-- `MemRead(pc, 1)` -/
  | fetchOpcode
  /-- `MemRead(pc + k, 1)` for k = 1, 2 or 3 -/
  | fetchOperandAddr
  /-- `MemRead(p1, 1)` -/
  | readOperandA
  /-- `MemRead(p2, 1)` -/
  | readOperandB
  /-- `MemWrite(p3, 1, r)` -/
  | writeResult
  /-- a SEED write to address 1 or 2 -/
  | hostSeed
  deriving DecidableEq, Repr

/-- One word of memory at its address. The spec's memory has no bytes (20_memory.md R40), so the cell is a word (log 4). -/
abbrev Cell := Nat × Int

/-- The contents of `M`, in one canonical form: addresses strictly rising, and no entry equal to 0, which is what an
unlisted address holds (log 4). -/
abbrev Memory := List Cell

/-- The state of the block: `(N, M, pc, RS, FAULT_CAUSE, FAULT_ACCESS, FAULT_VALUE, FAULT_PC)` (10_state.md R34), and
beside it the configuration, constant plain data that nothing changes (log 1). -/
structure State where
  /-- W, MEM_DEPTH and OVERFLOW_MODE (00_scope.md R6, R7, R8). -/
  cfg : Config
  /-- N, the memory length of the run (R15). -/
  memLen : Nat
  /-- M (R14). -/
  mem : Memory
  /-- The address of the current instruction's opcode word (R16, R17). -/
  pc : Nat
  /-- RS (R19). -/
  rs : RunState
  /-- FAULT_CAUSE (R21). -/
  faultCause : FaultCause
  /-- FAULT_ACCESS (R22); `none` is code 0, NONE. -/
  faultAccess : Option Access
  /-- FAULT_VALUE (R23). -/
  faultValue : Int
  /-- FAULT_PC (R24). -/
  faultPc : Nat
  deriving DecidableEq, Repr

/-- Every field at its reset value (10_state.md R32), for a block of the given configuration. N = 0, so no word of memory
exists and none is listed (R33). -/
def State.resetWith (c : Config) : State :=
  { cfg := c, memLen := 0, mem := [], pc := 0, rs := .idle,
    faultCause := .none, faultAccess := none, faultValue := 0, faultPc := 0 }

/-- The machine right after reset, in the reference configuration (R32; 00_scope.md R6, R8; log 2, log 3). -/
def State.reset : State := State.resetWith Config.reference

/-- Why `step` answers no next state. The block's own errors are not here: each one is taken, into the Failed run state
(60_exceptions.md R99). -/
inductive Fault where
  /-- Raised by `step` alone, in Idle, Halted and Failed, where the block takes no step (40_cycle.md R82); it carries
  that run state. Safe: the block stays as it is until the host acts on it, and the model proves nothing of a next
  state (log 6). -/
  | noStep (rs : RunState)
  deriving DecidableEq, Repr

/-- Why an instruction has no meaning. -/
inductive Refusal where
  /-- For an arm of `exec` that has no meaning yet. No arm answers it: all three instructions are modelled. Safe. -/
  | notModelled (mnemonic : String)
  deriving DecidableEq, Repr

end Sys2Proof.Machine
end

