-- ==== Sys2Proof/Machine/Ops.lean ====
section
/-! DEFINITION. The named operations over memory and the control state: the two memory primitives of 20_memory.md R36 and
R37, fault entry (60_exceptions.md R99) and the program counter's advance (40_cycle.md R77). -/

namespace Sys2Proof.Machine

/-! ### Memory contents -/

/-- What an unlisted address reads as (log 4). -/
abbrev unlistedWord : Int := 0

/-- The canonical form: addresses strictly rising, and no entry equal to what an unlisted address reads as (log 4). -/
abbrev Memory.wf (m : Memory) : Prop :=
  List.Pairwise (fun x y : Cell => x.1 < y.1) m ∧ ∀ c ∈ m, c.2 ≠ unlistedWord

/-- The word at an address. It is a word of `M` only below N: every access of the block
goes through `State.memRead`, which checks that. -/
def Memory.read : Memory → Nat → Int
  | [], _ => unlistedWord
  | (k, v) :: rest, a => if k = a then v else Memory.read rest a

/-- The contents with `v` at address `a` and every other word as before; writing what an unlisted address reads as
removes the entry. -/
def Memory.write : Memory → Nat → Int → Memory
  | [], a, v => if v = unlistedWord then [] else [(a, v)]
  | (k, u) :: rest, a, v =>
    if k < a then (k, u) :: Memory.write rest a v
    else if k = a then (if v = unlistedWord then rest else (a, v) :: rest)
    else (if v = unlistedWord then (k, u) :: rest else (a, v) :: (k, u) :: rest)

/-- The contents that hold the words of a list at consecutive addresses from `a`, and nothing else. -/
def Memory.ofWords : Nat → List Int → Memory
  | _, [] => []
  | a, v :: vs => if v = unlistedWord then Memory.ofWords (a + 1) vs else (a, v) :: Memory.ofWords (a + 1) vs

/-- The contents with the words of a list written at consecutive addresses from `a`. -/
def Memory.writeWords : Memory → Nat → List Int → Memory
  | m, _, [] => m
  | m, a, v :: vs => Memory.writeWords (Memory.write m a v) (a + 1) vs

/-- `M[0]` to `M[N-1]` in order: memory as the sequence of exactly N words of 10_state.md R34. -/
def State.words (s : State) : List Int :=
  (List.range s.memLen).map fun a => s.mem.read a

/-! ### The block's errors -/

/-- The three kinds of fault the block raises, each with what it records (60_exceptions.md R94 to R97). -/
inductive BlockError where
  /-- DecodeError, carrying the opcode value (R95). -/
  | decodeError (op : Int)
  /-- BoundsError, carrying the address and the access (R96). -/
  | boundsError (addr : Int) (access : Access)
  /-- OverflowError, carrying the opcode (R97). -/
  | overflowError (op : Int)
  deriving DecidableEq, Repr

/-- The FAULT_CAUSE of an error (R94). -/
def BlockError.cause : BlockError → FaultCause
  | .decodeError _ => .decode
  | .boundsError _ _ => .bounds
  | .overflowError _ => .overflow

/-- The FAULT_ACCESS of an error: none for DecodeError and OverflowError (R94). -/
def BlockError.access : BlockError → Option Access
  | .decodeError _ => none
  | .boundsError _ acc => some acc
  | .overflowError _ => none

/-- The FAULT_VALUE of an error (10_state.md R23; R94). -/
def BlockError.value : BlockError → Int
  | .decodeError op => op
  | .boundsError addr _ => addr
  | .overflowError op => op

/-- Fault entry: the run state becomes Failed and the fault record is written, with FAULT_PC the pc; nothing else
changes (R99). DEDUCED, safe (log 14): FAULT_PC of a HOST_SEED fault is this same pc, which is 0 in Idle. -/
def State.raise (s : State) (e : BlockError) : State :=
  { s with rs := .failed, faultCause := e.cause, faultAccess := e.access,
           faultValue := e.value, faultPc := s.pc }

/-! ### The two memory primitives -/

/-- `M` replaced by other contents; N and every other field stay. -/
def State.setMem (s : State) (m : Memory) : State := { s with mem := m }

/-- `0 ≤ addr < N`, on mathematical integers (00_scope.md R10, R12). -/
abbrev State.inBounds (s : State) (addr : Int) : Prop := 0 ≤ addr ∧ addr < (s.memLen : Int)

/-- `MemRead(addr, 1)` (20_memory.md R36): the word, or BoundsError outside `[0, N)`. It never wraps and gives no default (R39). -/
def State.memRead (s : State) (addr : Int) (acc : Access) : Except BlockError Int :=
  if s.inBounds addr then .ok (s.mem.read addr.toNat) else .error (.boundsError addr acc)

/-- `MemWrite(addr, 1, v)` (R37): one word replaced, or BoundsError with `M` unchanged. -/
def State.memWrite (s : State) (addr : Int) (v : Int) (acc : Access) : Except BlockError State :=
  if s.inBounds addr then .ok (s.setMem (s.mem.write addr.toNat v))
  else .error (.boundsError addr acc)

/-! ### Program counter and run state -/

/-- The pc stride (00_scope.md R9). -/
def pcStride : Nat := 4

/-- `pc <- pc + 4` (40_cycle.md R77). The pc is a natural number and never wraps (10_state.md R17, R34; log 9). -/
def State.advancePc (s : State) : State := { s with pc := s.pc + pcStride }

/-- `RS <- r`. -/
def State.setRunState (s : State) (r : RunState) : State := { s with rs := r }

/-! ### Addresses the spec fixes (00_scope.md R9, 20_memory.md R43) -/

/-- The noun's address. -/
def nounAddr : Int := 1

/-- The verb's address. -/
def verbAddr : Int := 2

/-- The result cell. -/
def resultAddr : Int := 0

end Sys2Proof.Machine
end

