-- ==== Sys2Proof/Machine/Operands.lean ====
section
/-! DEFINITION. The one operand form, positional addressing: a source field is dereferenced once, the destination field is
not (30_encoding.md R58, 40_cycle.md R72, R73). -/

namespace Sys2Proof.Machine

/-- a = `MemRead(p1, 1)` (40_cycle.md R72). -/
def State.operandA (s : State) (p1 : Int) : Except BlockError Int := s.memRead p1 .readOperandA

/-- b = `MemRead(p2, 1)` (R72). -/
def State.operandB (s : State) (p2 : Int) : Except BlockError Int := s.memRead p2 .readOperandB

/-- Write-back: `MemWrite(d, 1, r)`, the one write of a step (R76). -/
def State.writeResult (s : State) (d r : Int) : Except BlockError State := s.memWrite d r .writeResult

end Sys2Proof.Machine
end

