-- ==== Sys2Proof/Machine/Alu.lean ====
section
/-! DEFINITION. The ALU, and the meanings of Add and Mul (41_arithmetic.md). -/

namespace Sys2Proof.Machine

/-- The ALU's kind select (R83). -/
inductive AluKind where
  | add
  | mul
  deriving DecidableEq, Repr

/-- The exact result, on mathematical integers (R83). -/
def AluKind.exact : AluKind → Int → Int → Int
  | .add, a, b => a + b
  | .mul, a, b => a * b

/-- The opcode an OverflowError records: 1 for Add, 2 for Mul (R83, R97). -/
def AluKind.opcode : AluKind → Int
  | .add => addCode
  | .mul => mulCode

/-- `ALU(kind, a, b)` (R83): wrapped under WRAP, exact or OverflowError under CHECKED. -/
def alu (c : Config) (k : AluKind) (a b : Int) : Except BlockError Int :=
  match c.overflowMode with
  | .wrap => .ok (wrapWord c.wordBits (k.exact a b))
  | .checked =>
    if overflows c.wordBits (k.exact a b) then .error (.overflowError k.opcode)
    else .ok (k.exact a b)

/-- Add and Mul after the fetch: read a, read b, compute, write, advance, in that order; the first error met is taken
and ends the step (20_memory.md R47, 40_cycle.md R68, 60_exceptions.md R101). -/
def execArith (k : AluKind) (p1 p2 p3 : Int) (s : State) : Host.Outcome State Fault Refusal :=
  match s.operandA p1 with
  | .error e => .next (s.raise e)
  | .ok a =>
    match s.operandB p2 with
    | .error e => .next (s.raise e)
    | .ok b =>
      match alu s.cfg k a b with
      | .error e => .next (s.raise e)
      | .ok r =>
        match s.writeResult p3 r with
        | .error e => .next (s.raise e)
        | .ok t => .next t.advancePc

/-- Add (R84). -/
def execAdd (p1 p2 p3 : Int) (s : State) : Host.Outcome State Fault Refusal := execArith .add p1 p2 p3 s

/-- Mul (R85). -/
def execMul (p1 p2 p3 : Int) (s : State) : Host.Outcome State Fault Refusal := execArith .mul p1 p2 p3 s

end Sys2Proof.Machine
end

