-- ==== Sys2Proof/Machine/Halt.lean ====
section
/-! DEFINITION. The meaning of Halt (42_halt.md). -/

namespace Sys2Proof.Machine

/-- Halt: `RS <- Halted`; memory and pc unchanged (R90, R91). -/
def execHalt (s : State) : Host.Outcome State Fault Refusal := .next (s.setRunState .halted)

end Sys2Proof.Machine
end

