-- ==== Sys2Proof/Machine/Dispatch.lean ====
section
/-! DEFINITION. One arm per instruction of the opcode table. `exec` is the part of a step after the decode (40_cycle.md
R68); that the block is Running is the step's own check (R67; log 6). -/

namespace Sys2Proof.Machine

def exec (i : Instr) (s : State) : Host.Outcome State Fault Refusal :=
  match i with
  | .add p1 p2 p3 => Sys2Proof.Machine.execAdd p1 p2 p3 s
  | .mul p1 p2 p3 => Sys2Proof.Machine.execMul p1 p2 p3 s
  | .halt => Sys2Proof.Machine.execHalt s

end Sys2Proof.Machine
end

