-- ==== Sys2Proof/Machine/Fetch.lean ====
section
/-! DEFINITION. Reading an instruction from memory at the pc, each word bounds-checked as it is read (40_cycle.md R69 to R71). -/

namespace Sys2Proof.Machine

/-- The `n` operand-address words from `pc + k` on, in rising order; the first one out of bounds is the error (R71). -/
def State.fetchOperandAddrs (s : State) : Nat → Nat → Except BlockError (List Int)
  | 0, _ => .ok []
  | n + 1, k =>
    match s.memRead ((s.pc : Int) + (k : Int)) .fetchOperandAddr with
    | .error e => .error e
    | .ok p =>
      match s.fetchOperandAddrs n (k + 1) with
      | .error e => .error e
      | .ok ps => .ok (p :: ps)

/-- Fetch and decode (R68 to R75): the opcode word; for 1 and 2 the three words after it; for 99 nothing more; for any
other value DecodeError, with no further word read. -/
def State.fetch (s : State) : Except BlockError Instr :=
  match s.memRead (s.pc : Int) .fetchOpcode with
  | .error e => .error e
  | .ok op =>
    match operandCount op with
    | none => .error (.decodeError op)
    | some n =>
      match s.fetchOperandAddrs n 1 with
      | .error e => .error e
      | .ok ps =>
        match decode (op :: ps) with
        | .ok (i, _) => .ok i
        | .error _ => .error (.decodeError op)

/-- The state in which the words stand at the pc, within the memory length, and the block is Running: what a LOAD of
them, before a START, gives the next step to fetch (70_reset_and_hazards.md R114, R117; log 7). -/
def State.placeAtPc (s : State) (ws : List Int) : State :=
  { s with mem := s.mem.writeWords s.pc ws, memLen := max s.memLen (s.pc + ws.length), rs := .running }

end Sys2Proof.Machine
end

