-- ==== Sys2Proof/Machine/Step.lean ====
section
/-! DEFINITION. The fetch-decode-execute step (40_cycle.md). -/

namespace Sys2Proof.Machine

/-- One step: the block takes one only while Running (R67, R82). An error of the fetch or the decode is taken (60_exceptions.md R99).
DESIGN CHOICE, safe (log 6): in Idle, Halted and Failed, where the block takes no step, this answers a fault that says so. -/
def step (s : State) : Host.Outcome State Fault Refusal :=
  match s.rs with
  | .running =>
    match s.fetch with
    | .error e => .next (s.raise e)
    | .ok i => exec i s
  | .idle => .fault (.noStep .idle)
  | .halted => .fault (.noStep .halted)
  | .failed => .fault (.noStep .failed)

/-- `s` with the instruction whose bits are `w` (numbered as spec/opcode_table.json numbers them; those above `nbits` are 0)
where the next step fetches, in a memory long enough to hold it, and Running. It stands for a LOAD and a START (log 7). -/
def State.withFetchWord (s : State) (nbits w : Nat) : State :=
  s.placeAtPc (tableWords s.cfg.wordBits nbits w)

end Sys2Proof.Machine
end

