-- ==== Sys2Proof/Asm.lean ====
section
/-! DEFINITION. The assembly notation of 30_encoding.md R65, line by line and after the text is split into lines and items: what
words each line emits. It is notation only: no state and no step depends on it. -/

namespace Sys2Proof

/-- P1, P2, P3 or V: a signed decimal integer or a label (R65). -/
inductive AsmOperand where
  | number (v : Int)
  | label (name : String)
  deriving DecidableEq, Repr

/-- One item of an assembly program (R65). There are no pseudo-instructions (R66). -/
inductive AsmLine where
  | add (p1 p2 p3 : AsmOperand)
  | mul (p1 p2 p3 : AsmOperand)
  | halt
  /-- `.word V` -/
  | word (v : AsmOperand)
  /-- `label:` -/
  | label (name : String)
  deriving DecidableEq, Repr

/-- How many words a line emits. -/
def AsmLine.size : AsmLine → Nat
  | .add _ _ _ => 4
  | .mul _ _ _ => 4
  | .halt => 1
  | .word _ => 1
  | .label _ => 0

/-- Each label with the address of the next emitted word, the first word at the given address; the first declaration of a
name is the one that counts (log 17). -/
def labels : Nat → List AsmLine → List (String × Nat)
  | _, [] => []
  | a, .label name :: rest => (name, a) :: labels a rest
  | a, line :: rest => labels (a + line.size) rest

/-- The value of an operand; none for a label that no line declares. -/
def AsmOperand.value (env : List (String × Nat)) : AsmOperand → Option Int
  | .number v => some v
  | .label name => (env.lookup name).map fun a => (a : Int)

/-- The words a line emits (R65). -/
def emit (env : List (String × Nat)) : AsmLine → Option (List Int)
  | .add p1 p2 p3 => do
    let a ← p1.value env
    let b ← p2.value env
    let d ← p3.value env
    return encode (.add a b d)
  | .mul p1 p2 p3 => do
    let a ← p1.value env
    let b ← p2.value env
    let d ← p3.value env
    return encode (.mul a b d)
  | .halt => some (encode .halt)
  | .word v => do
    let w ← v.value env
    return [w]
  | .label _ => some []

/-- The words of a sequence of lines, in order. -/
def emitAll (env : List (String × Nat)) : List AsmLine → Option (List Int)
  | [] => some []
  | line :: rest => do
    let ws ← emit env line
    let more ← emitAll env rest
    return ws ++ more

/-- The image of a program: words at consecutive addresses from 0, each of which must fit in W bits (R65). -/
def assemble (w : Nat) (lines : List AsmLine) : Option (List Int) := do
  let ws ← emitAll (labels 0 lines) lines
  if ws.all fun v => decide (InWord w v) then some ws else none

end Sys2Proof
end

