-- ==== Sys2Proof/Machine/HostPort.lean ====
section
/-! DEFINITION. The host port: the six transactions of 10_state.md R31, each atomic and between two steps, and the seven
status registers (R28). They are functions of the state beside `step`, because what the host sends, and when, is its own
choice (log 7). -/

namespace Sys2Proof.Machine

/-! ### Status registers -/

/-- The RS field of STATUS, bits [1:0] (10_state.md R29). -/
def RunState.code : RunState → Int
  | .idle => 0
  | .running => 1
  | .halted => 2
  | .failed => 3

/-- The FAULT_CAUSE code (R21). -/
def FaultCause.code : FaultCause → Int
  | .none => 0
  | .decode => 1
  | .bounds => 2
  | .overflow => 3

/-- The FAULT_ACCESS code of an access (R22). -/
def Access.code : Access → Int
  | .fetchOpcode => 1
  | .fetchOperandAddr => 2
  | .readOperandA => 3
  | .readOperandB => 4
  | .writeResult => 5
  | .hostSeed => 6

/-- The FAULT_ACCESS code, 0 for NONE (R22). -/
def accessCode : Option Access → Int
  | none => 0
  | some acc => acc.code

/-- Status register `n`, none for a number that is not 0 to 6 (R28). Reserved bits read as zero, because each register
is the integer of its field alone (R29). -/
def State.statusRegister (s : State) (n : Int) : Option Int :=
  if n = 0 then some s.rs.code
  else if n = 1 then some s.faultCause.code
  else if n = 2 then some (accessCode s.faultAccess)
  else if n = 3 then some s.faultValue
  else if n = 4 then some (s.faultPc : Int)
  else if n = 5 then some (s.pc : Int)
  else if n = 6 then some (s.memLen : Int)
  else none

/-! ### Transactions -/

/-- What the host can send (R31). -/
inductive Transaction where
  | reset
  | load (image : List Int)
  | seed (noun verb : Int)
  | start
  | read (addr : Int)
  | status (n : Int)
  deriving DecidableEq, Repr

/-- What the block gives back (R31). -/
inductive Response where
  /-- RESET has no response. -/
  | none
  | ok
  /-- OK with a word (READ, STATUS). -/
  | okWord (v : Int)
  | tooLong
  | bounds
  | busy
  deriving DecidableEq, Repr

/-- The words a transaction carries are W-bit words; the host sends no others (70_reset_and_hazards.md R116, R124; log 8). -/
def Transaction.wellFormed (w : Nat) : Transaction → Bool
  | .load image => image.all fun v => decide (InWord w v)
  | .seed noun verb => decide (InWord w noun) && decide (InWord w verb)
  | .reset | .start | .read _ | .status _ => true

/-- RESET, in any run state: every field to its reset value (R111, R112). The configuration is the block's own and stays. -/
def doReset (s : State) : Response × State := (.none, State.resetWith s.cfg)

/-- The state a LOAD leaves (R114): N and M from the image, and every other field as at reset. -/
def State.loaded (s : State) (image : List Int) : State :=
  { State.resetWith s.cfg with memLen := image.length, mem := Memory.ofWords 0 image }

/-- LOAD, in Idle, Halted and Failed (R114); BUSY in Running (R120). -/
def doLoad (image : List Int) (s : State) : Response × State :=
  if s.rs = .running then (.busy, s)
  else if s.cfg.memDepth < image.length then (.tooLong, s)
  else (.ok, s.loaded image)

/-- SEED, in Idle (R115); BUSY otherwise (R120). The writes are made in order, each with access HOST_SEED; one out of
bounds is a fault of the block, and a first write that succeeded stays. -/
def doSeed (noun verb : Int) (s : State) : Response × State :=
  if s.rs = .idle then
    match s.memWrite nounAddr noun .hostSeed with
    | .error e => (.bounds, s.raise e)
    | .ok s1 =>
      match s1.memWrite verbAddr verb .hostSeed with
      | .error e => (.bounds, s1.raise e)
      | .ok s2 => (.ok, s2)
  else (.busy, s)

/-- START, in Idle (R117); BUSY otherwise (R120). -/
def doStart (s : State) : Response × State :=
  if s.rs = .idle then (.ok, s.setRunState .running) else (.busy, s)

/-- READ, in Idle, Halted and Failed (R118); BUSY in Running (R120). An address out of bounds responds BOUNDS and faults nothing. -/
def doRead (addr : Int) (s : State) : Response × State :=
  if s.rs = .running then (.busy, s)
  else if s.inBounds addr then (.okWord (s.mem.read addr.toNat), s)
  else (.bounds, s)

/-- STATUS, in any run state (R119). -/
def doStatus (n : Int) (s : State) : Response × State :=
  match s.statusRegister n with
  | some v => (.okWord v, s)
  | Option.none => (.bounds, s)

/-- One host transaction on the block: its response, and the state after it. -/
def transact (t : Transaction) (s : State) : Response × State :=
  match t with
  | .reset => doReset s
  | .load image => doLoad image s
  | .seed noun verb => doSeed noun verb s
  | .start => doStart s
  | .read addr => doRead addr s
  | .status n => doStatus n s

end Sys2Proof.Machine
end

