-- ==== Sys2Proof/Machine/Driver.lean ====
section
/-! DEFINITION. The document's `run(programText, noun, verb)` as the host sequence of 70_reset_and_hazards.md R121, from the
words on: the text is parsed outside the block (R116). -/

namespace Sys2Proof.Machine

/-- The block left to itself: it takes steps while it is Running, at most as many as the fuel. -/
def State.runFor : Nat → State → State
  | 0, s => s
  | fuel + 1, s =>
    match step s with
    | .next t => t.runFor fuel
    | .fault _ => s
    | .refused _ => s

/-- `⌈N / 4⌉ + 1`, the most steps a run takes (40_cycle.md R81). -/
def State.stepBound (s : State) : Nat := (s.memLen + 3) / 4 + 1

/-- What the host gets from a run (R121, R122). -/
inductive RunResult where
  /-- RS = Halted: the word READ(0) gives. -/
  | result (v : Int)
  /-- RS = Failed: the fault record. -/
  | error (cause : FaultCause) (access : Option Access) (value : Int) (faultPc : Nat)
  /-- LOAD or START was turned away, or READ(0) gave no word. -/
  | noResult (r : Response)
  /-- The block was still Running when the host stopped polling. -/
  | unfinished
  deriving DecidableEq, Repr

/-- Step 6 of R121: what the host returns from the state a run ended in. -/
def State.runResult (s : State) : RunResult :=
  match s.rs with
  | .halted =>
    match (transact (.read resultAddr) s).1 with
    | .okWord v => .result v
    | r => .noResult r
  | .failed => .error s.faultCause s.faultAccess s.faultValue s.faultPc
  | .idle => .unfinished
  | .running => .unfinished

/-- Steps 4 to 6 of R121: START, the run, and what the host returns. -/
def State.startAndRun (s : State) : RunResult :=
  match transact .start s with
  | (.ok, t) => (t.runFor t.stepBound).runResult
  | (r, _) => .noResult r

/-- Steps 2 to 6 of R121: LOAD, SEED where the host seeds (it is optional, R115), START, the run, the result. -/
def driverRun (image : List Int) (seed : Option (Int × Int)) (s : State) : RunResult :=
  match transact (.load image) s with
  | (.ok, s1) =>
    match seed with
    | none => s1.startAndRun
    | some (noun, verb) =>
      match transact (.seed noun verb) s1 with
      | (.ok, s2) => s2.startAndRun
      | (_, s2) => s2.runResult
  | (r, _) => .noResult r

end Sys2Proof.Machine
end

