-- ==== Sys2Proof/Safety.lean ====
section
/-! DEFINITION. What the claims about every state rest on: the invariant of the block, the states a block can reach, and the
end of a run. -/

namespace Sys2Proof.Machine

/-- Memory is the sequence of exactly N W-bit words the spec says it is (10_state.md R14, R34; 00_scope.md R7): canonical,
nothing listed at N or above, every word in range, N within MEM_DEPTH. -/
abbrev State.MemoryOk (s : State) : Prop :=
  s.mem.wf ∧ (∀ c ∈ s.mem, c.1 < s.memLen ∧ InWord s.cfg.wordBits c.2) ∧ s.memLen ≤ s.cfg.memDepth

/-- The pc is a multiple of 4 and at most N + 3 (10_state.md R17), and it is 0 in Idle (70_reset_and_hazards.md R117). -/
abbrev State.PcOk (s : State) : Prop :=
  s.pc % 4 = 0 ∧ s.pc ≤ s.memLen + 3 ∧ (s.rs = .idle → s.pc = 0)

/-- FAULT_VALUE of a BOUNDS fault for each access (10_state.md R23): `pc + k` for a fetch, p1, p2 or p3 for an operand or
the result, 1 or 2 for a SEED. -/
abbrev State.BoundsValueOk (s : State) : Access → Prop
  | .fetchOpcode => s.faultValue = (s.pc : Int)
  | .fetchOperandAddr => (s.pc : Int) + 1 ≤ s.faultValue ∧ s.faultValue ≤ (s.pc : Int) + 3
  | .readOperandA => s.faultValue = s.mem.read (s.pc + 1)
  | .readOperandB => s.faultValue = s.mem.read (s.pc + 2)
  | .writeResult => s.faultValue = s.mem.read (s.pc + 3)
  | .hostSeed => s.pc = 0 ∧ (s.faultValue = nounAddr ∨ s.faultValue = verbAddr)

/-- The fault record of a failed block, as its cause says (10_state.md R21 to R23, 60_exceptions.md R94). -/
abbrev State.CauseOk (s : State) : FaultCause → Prop
  | .none => False
  | .decode =>
    s.faultAccess = none ∧ operandCount s.faultValue = none ∧ s.pc < s.memLen ∧ s.mem.read s.pc = s.faultValue
  | .bounds => ∃ acc, s.faultAccess = some acc ∧ s.BoundsValueOk acc ∧ ¬ s.inBounds s.faultValue
  | .overflow =>
    s.faultAccess = none ∧ s.cfg.overflowMode = .checked ∧ s.faultValue = s.mem.read s.pc ∧
      (s.faultValue = addCode ∨ s.faultValue = mulCode)

/-- The fault record is empty outside Failed, and in Failed it is a record that fault entry writes (10_state.md R21 to R24,
60_exceptions.md R103): a cause with its access and its value, and the pc. -/
abbrev State.FaultRecordOk (s : State) : Prop :=
  if s.rs = .failed then
    s.faultPc = s.pc ∧ InWord s.cfg.wordBits s.faultValue ∧ s.CauseOk s.faultCause
  else
    s.faultCause = .none ∧ s.faultAccess = none ∧ s.faultValue = 0 ∧ s.faultPc = 0

/-- A halted block stands at a Halt word inside its memory (42_halt.md R90, R92). -/
abbrev State.HaltOk (s : State) : Prop :=
  s.rs = .halted → s.pc < s.memLen ∧ s.mem.read s.pc = haltCode

/-- The invariant of the block: a legal configuration and the four parts above. -/
structure State.Inv (s : State) : Prop where
  legal : s.cfg.Legal
  memory : s.MemoryOk
  pc : s.PcOk
  record : s.FaultRecordOk
  halt : s.HaltOk

/-- A run has ended: RS is Halted or Failed (70_reset_and_hazards.md R122). -/
abbrev State.Ended (s : State) : Prop := s.rs = .halted ∨ s.rs = .failed

/-- What the host gets from a run that ended in this state (70_reset_and_hazards.md R121, R122): word 0 of a halted block,
which has one; the fault record of a failed block, which names a cause. -/
abbrev State.EndsWith (s : State) (r : RunResult) : Prop :=
  (s.rs = .halted ∧ 0 < s.memLen ∧ r = .result (s.mem.read 0)) ∨
  (s.rs = .failed ∧ s.faultCause ≠ .none ∧ r = .error s.faultCause s.faultAccess s.faultValue s.faultPc)

/-- The states a block of a legal configuration can reach from reset, by its own steps and by the host's transactions, in
any order (a transaction falls between two steps, 10_state.md R31). -/
inductive Reachable : State → Prop
  | reset (c : Config) (legal : c.Legal) : Reachable (State.resetWith c)
  | step (s t : State) (from' : Reachable s) (h : step s = .next t) : Reachable t
  | host (s : State) (tr : Transaction) (from' : Reachable s) (wf : tr.wellFormed s.cfg.wordBits = true) :
      Reachable (transact tr s).2

end Sys2Proof.Machine
end

