-- ==== Sys2Proof/Certificates/Slice0/Obligations.lean ====
section
/-! DEFINITION. The statements for the provers, by the files of spec/ they come from. -/

open Sys2Proof Sys2Proof.Machine

/-! ### Encoding (30_encoding.md) -/

/-- The three opcodes' words at W = 64 (R55, R56, R57, R62) decode to their instructions; so do the words 1, 9, 10, -1; a
neighbour of each opcode is refused (R60). THE NUMBERING IS THE MODEL'S, not the spec's: that a number holds the first word in its
lowest W bits is log 13 (DEDUCED; the spec orders no words inside a number), and that the operand words a 64-bit number does not
give are 0 is log 7 (DESIGN CHOICE). -/
def Obligations.TableWordsDecode : Prop :=
  decodeTableWord 64 0x0000000000000001 = some (.add 0 0 0) ∧
  decodeTableWord 64 0x0000000000000002 = some (.mul 0 0 0) ∧
  decodeTableWord 64 0x0000000000000063 = some .halt ∧
  decodeTableWord 256 0xFFFFFFFFFFFFFFFF000000000000000A00000000000000090000000000000001 = some (.add 9 10 (-1)) ∧
  decodeTableWord 64 0x0000000000000000 = none ∧
  decodeTableWord 64 0x0000000000000003 = none ∧
  decodeTableWord 64 0x0000000000000064 = none

/-- Decoding the bits of an encoded instruction gives it back, at every word width the spec allows and with every operand
at every value a word can hold (R53 to R59, R62). THE NUMBERING IS THE MODEL'S, not the spec's: `tableNumber` puts word k at bits
W*k and up, the first word lowest (log 13, DEDUCED). -/
def Obligations.DecodeEncodeRoundTrip : Prop :=
  ∀ (w : Nat) (i : Instr), 8 ≤ w → i.wellFormed w = true →
    decodeTable w (w * (encode i).length) (tableNumber w (encode i)) = some i

/-- Each instruction has one encoding: whatever bits decode to it, the bits of its length are its encoding's (R54, R59). THE
NUMBERING IS THE MODEL'S, not the spec's: that these are the LOW W*length bits of the number rests on log 13 (DEDUCED: the first
word lowest; the spec orders no words inside a number), and the bits above nbits are 0 by log 7 (DESIGN CHOICE). -/
def Obligations.DecodedBitsAreTheEncoding : Prop :=
  ∀ (w nbits n : Nat) (i : Instr), 8 ≤ w → decodeTable w nbits n = some i →
    i.wellFormed w = true ∧ tableNumber w (encode i) = n % 2 ^ nbits % 2 ^ (w * (encode i).length)

/-- R60, R75, R95: a step at any opcode other than 1, 2 and 99 fails with DecodeError carrying the value, whatever follows the
opcode word and whether or not any word follows it. -/
def Obligations.IllegalOpcodeFails : Prop :=
  ∀ (s : State), s.rs = .running → s.pc < s.memLen →
    s.mem.read s.pc ≠ 1 → s.mem.read s.pc ≠ 2 → s.mem.read s.pc ≠ 99 →
    ∃ t, step s = .next t ∧ t.rs = .failed ∧ t.faultCause = .decode ∧ t.faultAccess = none ∧
      t.faultValue = s.mem.read s.pc ∧ t.faultPc = s.pc ∧
      t.pc = s.pc ∧ t.mem = s.mem ∧ t.memLen = s.memLen

/-- R65, R66: what each line emits, its operands numbers or labels; the words of two sequences of lines are those of the first
followed by those of the second; and, in a program that declares each label once, a label stands for the address of the next
emitted word, which is how many words the lines before it emit (the first word stands at address 0), and the image is the lines'
words in order if each fits in W bits, and else there is none. Twice declared and undeclared labels: LabelsOutsideTheRule. -/
def Obligations.AssemblyLinesEmitTheirWords : Prop :=
  (∀ (env : List (String × Nat)) (p1 p2 p3 : AsmOperand) (a b d : Int),
    p1.value env = some a → p2.value env = some b → p3.value env = some d →
    emit env (.add p1 p2 p3) = some [1, a, b, d] ∧ encode (.add a b d) = [1, a, b, d] ∧
    emit env (.mul p1 p2 p3) = some [2, a, b, d] ∧ encode (.mul a b d) = [2, a, b, d] ∧
    emit env (.word p1) = some [a]) ∧
  (∀ (env : List (String × Nat)) (v : Int) (name : String),
    (AsmOperand.number v).value env = some v ∧
    emit env .halt = some [99] ∧ encode .halt = [99] ∧ emit env (.label name) = some []) ∧
  (∀ (env : List (String × Nat)) (line : AsmLine), emitAll env [] = some [] ∧ emitAll env [line] = emit env line) ∧
  (∀ (env : List (String × Nat)) (x y : List AsmLine) (xs ys : List Int),
    emitAll env x = some xs → emitAll env y = some ys → emitAll env (x ++ y) = some (xs ++ ys)) ∧
  (∀ lines : List AsmLine, (∀ name, lines.count (.label name) ≤ 1) →
    (∀ (before after : List AsmLine) (name : String) (ws : List Int), lines = before ++ .label name :: after →
      emitAll (labels 0 lines) before = some ws →
      (AsmOperand.label name).value (labels 0 lines) = some (ws.length : Int)) ∧
    (∀ (w : Nat) (ws : List Int), emitAll (labels 0 lines) lines = some ws →
      ((∀ x ∈ ws, InWord w x) → assemble w lines = some ws) ∧
      ((∃ x ∈ ws, ¬ InWord w x) → assemble w lines = none)))

/-- THE MODEL'S CHOICE, log 17 (DESIGN CHOICE), where R65 is silent: of two declarations of one label the first counts; a label
that no line declares has no value, a line that uses one emits no words, and a program with such a
line has no image. So, whatever its labels, a program has an image exactly when all its lines emit words and each fits in W bits. -/
def Obligations.LabelsOutsideTheRule : Prop :=
  (∀ (before after : List AsmLine) (name : String) (ws : List Int), AsmLine.label name ∉ before →
    emitAll (labels 0 (before ++ .label name :: after)) before = some ws →
    (AsmOperand.label name).value (labels 0 (before ++ .label name :: after)) = some (ws.length : Int) ∧
    emit (labels 0 (before ++ .label name :: after)) (.word (.label name)) = some [(ws.length : Int)]) ∧
  (∀ (lines : List AsmLine) (name : String), AsmLine.label name ∉ lines →
    (AsmOperand.label name).value (labels 0 lines) = none) ∧
  (∀ (env : List (String × Nat)) (p1 p2 p3 : AsmOperand),
    (p1.value env = none ∨ p2.value env = none ∨ p3.value env = none →
      emit env (.add p1 p2 p3) = none ∧ emit env (.mul p1 p2 p3) = none) ∧
    (p1.value env = none → emit env (.word p1) = none)) ∧
  (∀ (lines : List AsmLine) (line : AsmLine) (w : Nat), line ∈ lines → emit (labels 0 lines) line = none →
    assemble w lines = none) ∧
  (∀ (w : Nat) (lines : List AsmLine) (ws : List Int), assemble w lines = some ws ↔
    emitAll (labels 0 lines) lines = some ws ∧ ∀ x ∈ ws, InWord w x)

/-! ### Memory (20_memory.md) -/

/-- R36, R37, R39: inside `[0, N)` a read gives the word and a write replaces exactly that word, N unchanged; outside, each
is BoundsError with the address and the access. -/
def Obligations.MemoryPrimitivesCheckBounds : Prop :=
  ∀ (s : State) (addr : Int) (v : Int) (acc : Access), s.mem.wf →
    (0 ≤ addr → addr < s.memLen →
      s.memRead addr acc = .ok (s.mem.read addr.toNat) ∧
      ∃ t, s.memWrite addr v acc = .ok t ∧ t = { s with mem := t.mem } ∧
        ∀ a : Nat, t.mem.read a = if (a : Int) = addr then v else s.mem.read a) ∧
    (addr < 0 ∨ (s.memLen : Int) ≤ addr →
      s.memRead addr acc = .error (.boundsError addr acc) ∧
      s.memWrite addr v acc = .error (.boundsError addr acc))

/-- R38: after a write, a read of its address gives the value, and a read of any other address gives what it gave before. -/
def Obligations.ReadAfterWrite : Prop :=
  ∀ (s : State) (a : Int) (v : Int) (acc acc' : Access), s.mem.wf → 0 ≤ a → a < s.memLen →
    ∃ t, s.memWrite a v acc = .ok t ∧ t.memRead a acc' = .ok v ∧
      ∀ a2 : Int, a2 ≠ a → t.memRead a2 acc' = s.memRead a2 acc'

/-- R50: the word an Add or a Mul stores at the next instruction's opcode is the opcode the next step decodes, whatever it is:
1 or 2 runs the Add or the Mul whose operand words stand after it in the new memory, and where they run beyond the end fails on the
first one there; 99 halts; any other value fails with DecodeError carrying it. -/
def Obligations.NextFetchSeesTheWrite : Prop :=
  ∀ (s : State) (k : AluKind) (r : Int), s.rs = .running → s.mem.wf → s.pc + 4 < s.memLen →
    s.mem.read s.pc = k.opcode →
    s.inBounds (s.mem.read (s.pc + 1)) → s.inBounds (s.mem.read (s.pc + 2)) →
    s.mem.read (s.pc + 3) = (s.pc : Int) + 4 →
    alu s.cfg k (s.mem.read (s.mem.read (s.pc + 1)).toNat) (s.mem.read (s.mem.read (s.pc + 2)).toNat) = .ok r →
    ∃ t, step s = .next t ∧ t.rs = .running ∧ t.pc = s.pc + 4 ∧ t.memLen = s.memLen ∧
      (∀ a : Nat, t.mem.read a = if a = s.pc + 4 then r else s.mem.read a) ∧
      (r = 1 → s.pc + 8 ≤ s.memLen →
        step t = exec (.add (t.mem.read (s.pc + 5)) (t.mem.read (s.pc + 6)) (t.mem.read (s.pc + 7))) t) ∧
      (r = 2 → s.pc + 8 ≤ s.memLen →
        step t = exec (.mul (t.mem.read (s.pc + 5)) (t.mem.read (s.pc + 6)) (t.mem.read (s.pc + 7))) t) ∧
      (r = 1 ∨ r = 2 → s.memLen < s.pc + 8 →
        step t = .next (t.raise (.boundsError (s.memLen : Int) .fetchOperandAddr))) ∧
      (r = 99 → ∃ u, step t = .next u ∧ u.rs = .halted) ∧
      (r ≠ 1 → r ≠ 2 → r ≠ 99 →
        ∃ u, step t = .next u ∧ u.rs = .failed ∧ u.faultCause = .decode ∧ u.faultValue = r ∧ u.faultPc = s.pc + 4)

/-! ### The step (40_cycle.md) -/

/-- When the words at the pc are the encoding of an instruction, a step of a Running block is `exec` of that instruction
(R68, R70); the step does nothing around it. -/
def Obligations.StepRunsDecodedInstruction : Prop :=
  ∀ (s : State) (i : Instr), s.rs = .running →
    (∀ k, k < (encode i).length → s.pc + k < s.memLen ∧ (encode i)[k]? = some (s.mem.read (s.pc + k))) →
    step s = exec i s

/-- The instruction the host's placing gives the step to fetch is the one the step runs. Both the placing and the numbering
are the model's, not the spec's: `withFetchWord` stands for a LOAD and a START, words not given being 0 (log 7, DESIGN CHOICE), and
a number's first word is its lowest bits (log 13, DEDUCED). -/
def Obligations.PlacedInstructionRuns : Prop :=
  ∀ (s : State) (nbits n : Nat) (i : Instr), s.mem.wf →
    decodeTable s.cfg.wordBits nbits n = some i →
    step (s.withFetchWord nbits n) = exec i (s.withFetchWord nbits n)

/-- R82: in Idle, Halted and Failed the block takes no step. -/
def Obligations.NoStepUnlessRunning : Prop :=
  ∀ (s t : State), s.rs = .idle ∨ s.rs = .halted ∨ s.rs = .failed → step s ≠ .next t

/-- R19, R68, R79: a Running block always takes its step, and it ends Running with the pc advanced by 4, Halted, or Failed. -/
def Obligations.RunningBlockAlwaysSteps : Prop :=
  ∀ (s : State), s.rs = .running → ∃ t, step s = .next t ∧
    ((t.rs = .running ∧ t.pc = s.pc + 4 ∧ t.memLen = s.memLen) ∨
     (t.rs = .halted ∧ t.pc = s.pc ∧ t.memLen = s.memLen ∧ t.mem = s.mem) ∨
     (t.rs = .failed ∧ t.pc = s.pc ∧ t.memLen = s.memLen ∧ t.mem = s.mem))

/-- R69: a step at a pc at or beyond N fails with BoundsError(pc, FETCH_OPCODE). -/
def Obligations.OpcodeFetchBeyondEndFails : Prop :=
  ∀ (s : State), s.rs = .running → s.memLen ≤ s.pc →
    step s = .next (s.raise (.boundsError (s.pc : Int) .fetchOpcode))

/-- R63, R71: for opcode 1 or 2, the first operand word at or beyond N fails with BoundsError(pc + k, FETCH_OPERAND_ADDR). -/
def Obligations.OperandFetchBeyondEndFails : Prop :=
  ∀ (s : State) (k : Nat), s.rs = .running → s.mem.read s.pc = 1 ∨ s.mem.read s.pc = 2 →
    1 ≤ k → k ≤ 3 → s.memLen ≤ s.pc + k → (∀ j, j < k → s.pc + j < s.memLen) →
    step s = .next (s.raise (.boundsError ((s.pc : Int) + (k : Int)) .fetchOperandAddr))

/-- R80: the step depends on (N, M, pc) and the configuration alone: two Running blocks that agree on these have steps
that agree on them and on the run state, and on the fault record where they fail. -/
def Obligations.StepDependsOnMemoryAndPcAlone : Prop :=
  ∀ (s s' : State), s.rs = .running → s'.rs = .running →
    s'.cfg = s.cfg → s'.memLen = s.memLen → s'.mem = s.mem → s'.pc = s.pc →
    ∃ t t', step s = .next t ∧ step s' = .next t' ∧
      t'.cfg = t.cfg ∧ t'.memLen = t.memLen ∧ t'.mem = t.mem ∧ t'.pc = t.pc ∧ t'.rs = t.rs ∧
      (t.rs = .failed → t' = t)

/-- R78: a step leaves the pc or, where it completes an Add or a Mul, adds 4; LOAD and reset set it to 0; no other
transaction writes it. -/
def Obligations.OnlyThreeThingsWritePc : Prop :=
  (∀ (s t : State), step s = .next t →
    (t.rs = .running ∧ (s.mem.read s.pc = 1 ∨ s.mem.read s.pc = 2) ∧ t.pc = s.pc + 4) ∨ (t.rs ≠ .running ∧ t.pc = s.pc)) ∧
  (∀ (s : State) (tr : Transaction), (transact tr s).2.pc = s.pc ∨
    ((transact tr s).2.pc = 0 ∧ (tr = .reset ∨ ∃ image, tr = .load image)))

/-- R81: a run started by START ends in Halted or Failed within `⌈N/4⌉ + 1` steps, its k-th step is taken at pc = 4k, and
the first pc at which a step fails on its opcode fetch is `4⌈N/4⌉`. -/
def Obligations.EveryStartedRunEnds : Prop :=
  ∀ (s : State), s.rs = .running → s.pc = 0 →
    (∃ (k : Nat) (t : State), k ≤ (s.memLen + 3) / 4 + 1 ∧ core.run k s = .next t ∧ (t.rs = .halted ∨ t.rs = .failed)) ∧
    (∀ (k : Nat) (t : State), core.run k s = .next t → t.rs = .running → t.pc = 4 * k ∧ t.pc ≤ 4 * ((s.memLen + 3) / 4) ∧
      (t.memLen ≤ t.pc ↔ t.pc = 4 * ((s.memLen + 3) / 4)) ∧
      (t.memLen ≤ t.pc → step t = .next (t.raise (.boundsError (t.pc : Int) .fetchOpcode))))

/-! ### Arithmetic (41_arithmetic.md) -/

/-- R84: an Add, whole: its exceptions in the order they are checked, and the write and the advance. -/
def Obligations.AddFollowsItsRule : Prop :=
  ∀ (s : State) (p1 p2 p3 a b : Int), s.rs = .running → s.pc < s.memLen → s.mem.read s.pc = 1 →
    s.mem.read (s.pc + 1) = p1 → s.mem.read (s.pc + 2) = p2 → s.mem.read (s.pc + 3) = p3 →
    s.mem.read p1.toNat = a → s.mem.read p2.toNat = b →
    step s =
      if s.memLen ≤ s.pc + 1 then .next (s.raise (.boundsError ((s.pc : Int) + 1) .fetchOperandAddr))
      else if s.memLen ≤ s.pc + 2 then .next (s.raise (.boundsError ((s.pc : Int) + 2) .fetchOperandAddr))
      else if s.memLen ≤ s.pc + 3 then .next (s.raise (.boundsError ((s.pc : Int) + 3) .fetchOperandAddr))
      else if p1 < 0 ∨ (s.memLen : Int) ≤ p1 then .next (s.raise (.boundsError p1 .readOperandA))
      else if p2 < 0 ∨ (s.memLen : Int) ≤ p2 then .next (s.raise (.boundsError p2 .readOperandB))
      else if s.cfg.overflowMode = .checked ∧ ¬ InWord s.cfg.wordBits (a + b) then .next (s.raise (.overflowError 1))
      else if p3 < 0 ∨ (s.memLen : Int) ≤ p3 then .next (s.raise (.boundsError p3 .writeResult))
      else .next { s with
        mem := s.mem.write p3.toNat
          (if s.cfg.overflowMode = .wrap then wrapWord s.cfg.wordBits (a + b) else a + b),
        pc := s.pc + 4 }

/-- R85: a Mul, whole, as R84 with the product and opcode 2. -/
def Obligations.MulFollowsItsRule : Prop :=
  ∀ (s : State) (p1 p2 p3 a b : Int), s.rs = .running → s.pc < s.memLen → s.mem.read s.pc = 2 →
    s.mem.read (s.pc + 1) = p1 → s.mem.read (s.pc + 2) = p2 → s.mem.read (s.pc + 3) = p3 →
    s.mem.read p1.toNat = a → s.mem.read p2.toNat = b →
    step s =
      if s.memLen ≤ s.pc + 1 then .next (s.raise (.boundsError ((s.pc : Int) + 1) .fetchOperandAddr))
      else if s.memLen ≤ s.pc + 2 then .next (s.raise (.boundsError ((s.pc : Int) + 2) .fetchOperandAddr))
      else if s.memLen ≤ s.pc + 3 then .next (s.raise (.boundsError ((s.pc : Int) + 3) .fetchOperandAddr))
      else if p1 < 0 ∨ (s.memLen : Int) ≤ p1 then .next (s.raise (.boundsError p1 .readOperandA))
      else if p2 < 0 ∨ (s.memLen : Int) ≤ p2 then .next (s.raise (.boundsError p2 .readOperandB))
      else if s.cfg.overflowMode = .checked ∧ ¬ InWord s.cfg.wordBits (a * b) then .next (s.raise (.overflowError 2))
      else if p3 < 0 ∨ (s.memLen : Int) ≤ p3 then .next (s.raise (.boundsError p3 .writeResult))
      else .next { s with
        mem := s.mem.write p3.toNat
          (if s.cfg.overflowMode = .wrap then wrapWord s.cfg.wordBits (a * b) else a * b),
        pc := s.pc + 4 }

/-- An Add whose three addresses are in bounds and whose result the mode admits completes: the sum at `p3`, the pc
advanced by 4, nothing else changed (R76, R77, R84). -/
def Obligations.AddCompletes : Prop :=
  ∀ (s : State) (p1 p2 p3 a b : Int), s.cfg.Legal → s.mem.wf →
    s.inBounds p1 → s.inBounds p2 → s.inBounds p3 →
    s.mem.read p1.toNat = a → s.mem.read p2.toNat = b →
    s.cfg.overflowMode = .wrap ∨ InWord s.cfg.wordBits (a + b) →
    ∃ t, exec (.add p1 p2 p3) s = .next t ∧
      t.mem.read p3.toNat = wrapWord s.cfg.wordBits (a + b) ∧
      (InWord s.cfg.wordBits (a + b) → t.mem.read p3.toNat = a + b) ∧
      (∀ x : Nat, (x : Int) ≠ p3 → t.mem.read x = s.mem.read x) ∧
      t = { s with mem := t.mem, pc := s.pc + 4 }

/-- A Mul whose three addresses are in bounds and whose result the mode admits completes: the product at `p3`, the pc
advanced by 4, nothing else changed (R76, R77, R85). -/
def Obligations.MulCompletes : Prop :=
  ∀ (s : State) (p1 p2 p3 a b : Int), s.cfg.Legal → s.mem.wf →
    s.inBounds p1 → s.inBounds p2 → s.inBounds p3 →
    s.mem.read p1.toNat = a → s.mem.read p2.toNat = b →
    s.cfg.overflowMode = .wrap ∨ InWord s.cfg.wordBits (a * b) →
    ∃ t, exec (.mul p1 p2 p3) s = .next t ∧
      t.mem.read p3.toNat = wrapWord s.cfg.wordBits (a * b) ∧
      (InWord s.cfg.wordBits (a * b) → t.mem.read p3.toNat = a * b) ∧
      (∀ x : Nat, (x : Int) ≠ p3 → t.mem.read x = s.mem.read x) ∧
      t = { s with mem := t.mem, pc := s.pc + 4 }

/-- The frame of Add and Mul (R15, R26, R37, R76, R79): N, the configuration and every word but the destination's stay;
where the instruction completes, so do the run state and the fault record; where it fails, so do all of memory and the pc. -/
def Obligations.AddMulFrame : Prop :=
  ∀ (s t : State) (i : Instr) (p1 p2 p3 : Int), i = .add p1 p2 p3 ∨ i = .mul p1 p2 p3 → exec i s = .next t →
    t.cfg = s.cfg ∧ t.memLen = s.memLen ∧
    (∀ x : Nat, (x : Int) ≠ p3 → t.mem.read x = s.mem.read x) ∧
    ((t.pc = s.pc + 4 ∧ t.rs = s.rs ∧ t.faultCause = s.faultCause ∧ t.faultAccess = s.faultAccess ∧
        t.faultValue = s.faultValue ∧ t.faultPc = s.faultPc) ∨
     (t.pc = s.pc ∧ t.rs = .failed ∧ t.mem = s.mem ∧ t.faultPc = s.pc))

/-- R88: under CHECKED, an overflowing Add or Mul raises OverflowError with the opcode after both operand reads and before
the write, wherever the write would go; a result that fits is stored exact. -/
def Obligations.CheckedOverflowFaults : Prop :=
  ∀ (s : State) (i : Instr) (op p1 p2 p3 exact : Int), s.cfg.overflowMode = .checked → s.mem.wf →
    s.inBounds p1 → s.inBounds p2 →
    (i = .add p1 p2 p3 ∧ op = 1 ∧ exact = s.mem.read p1.toNat + s.mem.read p2.toNat) ∨
    (i = .mul p1 p2 p3 ∧ op = 2 ∧ exact = s.mem.read p1.toNat * s.mem.read p2.toNat) →
    (¬ InWord s.cfg.wordBits exact →
      ∃ t, exec i s = .next t ∧ t.rs = .failed ∧ t.faultCause = .overflow ∧ t.faultValue = op ∧ t.mem = s.mem) ∧
    (InWord s.cfg.wordBits exact → s.inBounds p3 →
      ∃ t, exec i s = .next t ∧ t.rs = s.rs ∧ t.mem.read p3.toNat = exact)

/-- R97: a step raises OverflowError only under CHECKED, at an Add or a Mul whose exact result is outside the word range,
and it records the opcode; under WRAP it is never raised. -/
def Obligations.OverflowErrorOnlyUnderChecked : Prop :=
  ∀ (s t : State), step s = .next t → t.rs = .failed → t.faultCause = .overflow →
    s.cfg.overflowMode = .checked ∧ t.faultValue = s.mem.read s.pc ∧
    ∃ a b : Int, a = s.mem.read (s.mem.read (s.pc + 1)).toNat ∧ b = s.mem.read (s.mem.read (s.pc + 2)).toNat ∧
      ((s.mem.read s.pc = 1 ∧ ¬ InWord s.cfg.wordBits (a + b)) ∨
       (s.mem.read s.pc = 2 ∧ ¬ InWord s.cfg.wordBits (a * b)))

/-- R10: `wrap_W(v)` is the one integer in the word range congruent to v modulo 2^W, and it is the low W bits of v read as
two's complement. -/
def Obligations.WrapIsTheOneWordCongruent : Prop :=
  ∀ (w : Nat) (v : Int), 8 ≤ w →
    InWord w (wrapWord w v) ∧ (2 : Int) ^ w ∣ wrapWord w v - v ∧
    (∀ r : Int, InWord w r → (2 : Int) ^ w ∣ r - v → r = wrapWord w v) ∧
    wrapWord w v = wordOfPattern (patternOfWord w v)

/-- R86, the laws of Add under WRAP: exact when it fits; overflow exactly when a and b have one sign and r the other;
commutative, associative; the same bit pattern as unsigned addition. -/
def Obligations.WrappedAddLaws : Prop :=
  ∀ (c : Config) (a b d : Int), c.Legal → c.overflowMode = .wrap →
    InWord c.wordBits a → InWord c.wordBits b → InWord c.wordBits d →
    ∃ r ab bd : Int, alu c .add a b = .ok r ∧ r = wrapWord c.wordBits (a + b) ∧
      (r = a + b ↔ InWord c.wordBits (a + b)) ∧
      (¬ InWord c.wordBits (a + b) ↔ (0 ≤ a ∧ 0 ≤ b ∧ r < 0) ∨ (a < 0 ∧ b < 0 ∧ 0 ≤ r)) ∧
      alu c .add b a = .ok r ∧
      alu c .add a b = .ok ab ∧ alu c .add b d = .ok bd ∧ alu c .add ab d = alu c .add a bd ∧
      patternOfWord c.wordBits r = patternOfWord c.wordBits a + patternOfWord c.wordBits b

/-- R87, the laws of Mul under WRAP: the low W bits of the product, signed or unsigned; commutative; the signs; and
`a × (-1)`, which is out of range for the least word only. -/
def Obligations.WrappedMulLaws : Prop :=
  ∀ (c : Config) (a b : Int), c.Legal → c.overflowMode = .wrap →
    InWord c.wordBits a → InWord c.wordBits b →
    ∃ r n : Int, alu c .mul a b = .ok r ∧ r = wrapWord c.wordBits (a * b) ∧
      patternOfWord c.wordBits r = patternOfWord c.wordBits a * patternOfWord c.wordBits b ∧
      alu c .mul b a = .ok r ∧
      r = wrapWord c.wordBits (a.sign * b.sign * (a.natAbs * b.natAbs)) ∧
      alu c .mul a (-1) = .ok n ∧ (n = -a ↔ a ≠ minWord c.wordBits) ∧ (a = minWord c.wordBits → n = a)

/-! ### Halt (42_halt.md) -/

/-- R90: a step at opcode 99 sets RS to Halted and changes nothing else, also where the Halt is the last word of memory. -/
def Obligations.HaltFollowsItsRule : Prop :=
  ∀ (s : State), s.rs = .running → s.pc < s.memLen → s.mem.read s.pc = 99 →
    step s = .next { s with rs := .halted }

/-- R91: executing Halt leaves memory unchanged, and everything else but RS (its frame). -/
def Obligations.HaltCompletes : Prop :=
  ∀ (s : State), ∃ t, exec .halt s = .next t ∧ t.mem = s.mem ∧ t = { s with rs := .halted }

/-- R92: after a Halt the memory has a word 0, and READ(0) gives it as the Halt left it. -/
def Obligations.ResultIsWordZeroAfterHalt : Prop :=
  ∀ (s t : State), step s = .next t → t.rs = .halted →
    1 ≤ t.memLen ∧ t.mem = s.mem ∧ transact (.read 0) t = (.okWord (s.mem.read 0), t)

/-! ### Faults (60_exceptions.md) -/

/-- R99: fault entry writes RS and the fault record, with FAULT_PC the pc, and nothing else. -/
def Obligations.FaultEntryWritesTheRecord : Prop :=
  ∀ (s : State) (op : Int) (addr : Int) (acc : Access),
    s.raise (.decodeError op) =
      { s with rs := .failed, faultCause := .decode, faultAccess := none, faultValue := op, faultPc := s.pc } ∧
    s.raise (.boundsError addr acc) =
      { s with rs := .failed, faultCause := .bounds, faultAccess := some acc, faultValue := addr, faultPc := s.pc } ∧
    s.raise (.overflowError op) =
      { s with rs := .failed, faultCause := .overflow, faultAccess := none, faultValue := op, faultPc := s.pc }

/-- R79: a step that raises makes no memory write, leaves the pc, sets RS to Failed and records the error and the pc. -/
def Obligations.FailedStepLeavesMemoryAndPc : Prop :=
  ∀ (s t : State), step s = .next t → t.rs = .failed →
    t.mem = s.mem ∧ t.memLen = s.memLen ∧ t.pc = s.pc ∧
    ∃ e : BlockError, t.faultCause = e.cause ∧ t.faultAccess = e.access ∧ t.faultValue = e.value ∧ t.faultPc = s.pc

/-- R101: an Add or a Mul raises the first fault in the order of its accesses: p1, p2, overflow, p3. -/
def Obligations.FirstFaultIsReported : Prop :=
  ∀ (s : State) (i : Instr) (op p1 p2 p3 exact : Int),
    (i = .add p1 p2 p3 ∧ op = 1 ∧ exact = s.mem.read p1.toNat + s.mem.read p2.toNat) ∨
    (i = .mul p1 p2 p3 ∧ op = 2 ∧ exact = s.mem.read p1.toNat * s.mem.read p2.toNat) →
    (¬ s.inBounds p1 → exec i s = .next (s.raise (.boundsError p1 .readOperandA))) ∧
    (s.inBounds p1 → ¬ s.inBounds p2 → exec i s = .next (s.raise (.boundsError p2 .readOperandB))) ∧
    (s.inBounds p1 → s.inBounds p2 → s.cfg.overflowMode = .checked → ¬ InWord s.cfg.wordBits exact →
      exec i s = .next (s.raise (.overflowError op))) ∧
    (s.inBounds p1 → s.inBounds p2 → s.cfg.overflowMode = .wrap ∨ InWord s.cfg.wordBits exact → ¬ s.inBounds p3 →
      exec i s = .next (s.raise (.boundsError p3 .writeResult)))

/-- R21: the fault record is written only by fault entry and cleared only by LOAD and reset. -/
def Obligations.FaultRecordWrittenByFaultEntryOnly : Prop :=
  (∀ (s t : State), step s = .next t → t.rs ≠ .failed →
    t.faultCause = s.faultCause ∧ t.faultAccess = s.faultAccess ∧ t.faultValue = s.faultValue ∧ t.faultPc = s.faultPc) ∧
  (∀ (s : State) (tr : Transaction),
    ((transact tr s).2.faultCause = s.faultCause ∧ (transact tr s).2.faultAccess = s.faultAccess ∧
      (transact tr s).2.faultValue = s.faultValue ∧ (transact tr s).2.faultPc = s.faultPc) ∨
    ((tr = .reset ∨ ∃ image, tr = .load image) ∧
      (transact tr s).2.faultCause = .none ∧ (transact tr s).2.faultAccess = none ∧
      (transact tr s).2.faultValue = 0 ∧ (transact tr s).2.faultPc = 0) ∨
    ((∃ noun verb, tr = .seed noun verb) ∧ (transact tr s).1 = .bounds ∧ (transact tr s).2.rs = .failed))

/-! ### Reset and the host port (70_reset_and_hazards.md, 10_state.md) -/

/-- R32, R111: RESET, in any run state, sets every piece of state to its reset value; memory has no addressable word. -/
def Obligations.ResetSetsEveryField : Prop :=
  ∀ (s t : State), t = (transact .reset s).2 →
    (transact .reset s).1 = .none ∧
    t.rs = .idle ∧ t.memLen = 0 ∧ t.pc = 0 ∧ t.faultCause = .none ∧ t.faultAccess = none ∧ t.faultValue = 0 ∧
    t.faultPc = 0 ∧ ∀ (addr : Int) (acc : Access), t.memRead addr acc = .error (.boundsError addr acc)

/-- R33: after reset every READ gets BOUNDS, a SEED faults on address 1, and a START followed by a step faults with
BoundsError at address 0, access FETCH_OPCODE. -/
def Obligations.NothingIsReadableAfterReset : Prop :=
  ∀ (c : Config) (addr : Int) (noun verb : Int),
    transact (.read addr) (State.resetWith c) = (.bounds, State.resetWith c) ∧
    transact (.seed noun verb) (State.resetWith c) =
      (.bounds, (State.resetWith c).raise (.boundsError 1 .hostSeed)) ∧
    ∃ t, transact .start (State.resetWith c) = (.ok, t) ∧ step t = .next (t.raise (.boundsError 0 .fetchOpcode))

/-- R114: LOAD outside Running: an image beyond MEM_DEPTH responds TOO_LONG and nothing changes; any other gives N, M, pc,
RS and the fault record of a new run. -/
def Obligations.LoadBeginsANewRun : Prop :=
  ∀ (s : State) (image : List Int), s.rs = .idle ∨ s.rs = .halted ∨ s.rs = .failed →
    (s.cfg.memDepth < image.length → transact (.load image) s = (.tooLong, s)) ∧
    (image.length ≤ s.cfg.memDepth →
      ∃ t, transact (.load image) s = (.ok, t) ∧ t.memLen = image.length ∧
        (∀ i, i < image.length → image[i]? = some (t.mem.read i)) ∧ t.words = image ∧
        t.pc = 0 ∧ t.rs = .idle ∧ t.faultCause = .none ∧ t.faultAccess = none ∧ t.faultValue = 0 ∧ t.faultPc = 0)

/-- R115: SEED in Idle writes word 1 and then word 2. With N ≤ 1 the first write faults, with N = 2 the second, and the
first stays; each fault is BoundsError with access HOST_SEED, FAULT_PC = pc, and the response BOUNDS. In a state of the
block that pc is 0. -/
def Obligations.SeedWritesNounAndVerb : Prop :=
  ∀ (s : State) (noun verb : Int), s.rs = .idle → s.mem.wf →
    (s.Inv → s.pc = 0) ∧
    (s.memLen ≤ 1 → transact (.seed noun verb) s = (.bounds, s.raise (.boundsError 1 .hostSeed))) ∧
    (s.memLen = 2 → ∃ t, transact (.seed noun verb) s = (.bounds, t) ∧ t.rs = .failed ∧ t.faultCause = .bounds ∧
      t.faultAccess = some .hostSeed ∧ t.faultValue = 2 ∧ t.faultPc = s.pc ∧ t.pc = s.pc ∧ t.memLen = 2 ∧
      t.mem.read 0 = s.mem.read 0 ∧ t.mem.read 1 = noun) ∧
    (3 ≤ s.memLen → ∃ t, transact (.seed noun verb) s = (.ok, t) ∧ t = { s with mem := t.mem } ∧
      t.mem.read 1 = noun ∧ t.mem.read 2 = verb ∧ ∀ x : Nat, x ≠ 1 → x ≠ 2 → t.mem.read x = s.mem.read x)

/-- R117: START in Idle sets RS to Running, changes nothing else and responds OK; in a state of the block, pc is 0 then. -/
def Obligations.StartRunsFromAddressZero : Prop :=
  ∀ (s : State), s.Inv → s.rs = .idle → transact .start s = (.ok, { s with rs := .running }) ∧ s.pc = 0

/-- R118: READ in Idle, Halted and Failed gives the word in `[0, N)` and BOUNDS elsewhere, and changes nothing. -/
def Obligations.ReadGivesTheWord : Prop :=
  ∀ (s : State) (addr : Int), s.rs = .idle ∨ s.rs = .halted ∨ s.rs = .failed →
    (0 ≤ addr ∧ addr < s.memLen → transact (.read addr) s = (.okWord (s.mem.read addr.toNat), s)) ∧
    (addr < 0 ∨ (s.memLen : Int) ≤ addr → transact (.read addr) s = (.bounds, s))

/-- R28, R119: STATUS, in any run state, responds with registers 0 to 6 and BOUNDS for any other number, and changes nothing. -/
def Obligations.StatusGivesTheRegisters : Prop :=
  ∀ (s : State),
    transact (.status 0) s = (.okWord (match s.rs with | .idle => 0 | .running => 1 | .halted => 2 | .failed => 3), s) ∧
    transact (.status 1) s =
      (.okWord (match s.faultCause with | .none => 0 | .decode => 1 | .bounds => 2 | .overflow => 3), s) ∧
    transact (.status 2) s =
      (.okWord (match s.faultAccess with
        | none => 0 | some .fetchOpcode => 1 | some .fetchOperandAddr => 2 | some .readOperandA => 3
        | some .readOperandB => 4 | some .writeResult => 5 | some .hostSeed => 6), s) ∧
    transact (.status 3) s = (.okWord s.faultValue, s) ∧
    transact (.status 4) s = (.okWord (s.faultPc : Int), s) ∧
    transact (.status 5) s = (.okWord (s.pc : Int), s) ∧
    transact (.status 6) s = (.okWord (s.memLen : Int), s) ∧
    ∀ n : Int, n < 0 ∨ 6 < n → transact (.status n) s = (.bounds, s)

/-- R120: a transaction that the run state does not admit responds BUSY and changes nothing; in Running that is every one
but STATUS and RESET. -/
def Obligations.BusyChangesNothing : Prop :=
  ∀ (s : State) (image : List Int) (noun verb : Int) (addr : Int),
    (s.rs = .running → transact (.load image) s = (.busy, s) ∧ transact (.read addr) s = (.busy, s)) ∧
    (s.rs ≠ .idle → transact (.seed noun verb) s = (.busy, s) ∧ transact .start s = (.busy, s))

/-- R20: from Halted and Failed no step, SEED or START is admitted, and only LOAD or reset leaves them. -/
def Obligations.HaltedAndFailedAreTerminal : Prop :=
  ∀ (s : State), s.rs = .halted ∨ s.rs = .failed →
    (∀ t, step s ≠ .next t) ∧
    (∀ noun verb, transact (.seed noun verb) s = (.busy, s)) ∧ transact .start s = (.busy, s) ∧
    ∀ tr : Transaction, (transact tr s).2 ≠ s → tr = .reset ∨ ∃ image, tr = .load image

/-- R15: N is set by LOAD and changed by nothing else but reset: no step and no other transaction; an address at or above
N is out of bounds. -/
def Obligations.MemoryLengthIsFixedForTheRun : Prop :=
  (∀ (s t : State), step s = .next t → t.memLen = s.memLen) ∧
  (∀ (s t : State) (image : List Int), transact (.load image) s = (.ok, t) → t.memLen = image.length) ∧
  (∀ (s : State) (tr : Transaction), (transact tr s).2.memLen = s.memLen ∨ tr = .reset ∨ ∃ image, tr = .load image) ∧
  (∀ (s : State) (addr : Int) (v : Int) (acc : Access), (s.memLen : Int) ≤ addr →
    s.memRead addr acc = .error (.boundsError addr acc) ∧ s.memWrite addr v acc = .error (.boundsError addr acc))

/-- The configuration is constant: no step and no transaction changes it (R34: it is configuration, not state; log 1). -/
def Obligations.ConfigurationIsConstant : Prop :=
  (∀ (s t : State), step s = .next t → t.cfg = s.cfg) ∧
  (∀ (s : State) (tr : Transaction), (transact tr s).2.cfg = s.cfg)

/-! ### Invariants and whole runs -/

/-- The invariant of the block holds at reset, in every legal configuration and at `State.reset` itself. -/
def Obligations.ResetHasTheInvariant : Prop :=
  (∀ c : Config, c.Legal → (State.resetWith c).Inv) ∧ State.reset.Inv

/-- Every step keeps the invariant: memory stays N words of W bits in canonical form, the pc a multiple of 4 at most N + 3,
the fault record empty outside Failed and a record that fault entry writes in Failed, a halted block at a Halt word. -/
def Obligations.StepKeepsTheInvariant : Prop :=
  ∀ (s t : State), s.Inv → step s = .next t → t.Inv

/-- Every host transaction, of W-bit words, keeps the invariant. -/
def Obligations.TransactionsKeepTheInvariant : Prop :=
  ∀ (s : State) (tr : Transaction), s.Inv → tr.wellFormed s.cfg.wordBits = true → (transact tr s).2.Inv

/-- R17: in every reachable state pc is a multiple of 4 with `0 ≤ pc ≤ N + 3`, and it fits its W-bit register. -/
def Obligations.ReachablePcIsAlignedAndBounded : Prop :=
  ∀ (s : State), Reachable s → s.pc % 4 = 0 ∧ s.pc ≤ s.memLen + 3 ∧ (s.pc : Int) ≤ maxWord s.cfg.wordBits

/-- R23, R24: in every reachable state, FAULT_VALUE is the opcode for DECODE and OVERFLOW and the address for BOUNDS: `pc + k`
for a fetch, p1, p2 or p3 for an operand or the result, 1 or 2 for a SEED; FAULT_PC is the pc; both are 0 for NONE. -/
def Obligations.ReachableFaultRecordNamesTheFault : Prop :=
  ∀ (s : State), Reachable s →
    (s.faultCause = .none ↔ s.rs ≠ .failed) ∧
    (s.faultCause = .none → s.faultAccess = none ∧ s.faultValue = 0 ∧ s.faultPc = 0) ∧
    (s.faultCause ≠ .none → s.faultPc = s.pc) ∧
    (s.faultCause = .decode → s.faultAccess = none ∧ s.faultValue = s.mem.read s.pc ∧
      s.faultValue ≠ 1 ∧ s.faultValue ≠ 2 ∧ s.faultValue ≠ 99) ∧
    (s.faultCause = .overflow → s.faultAccess = none ∧ s.faultValue = s.mem.read s.pc ∧
      (s.faultValue = 1 ∨ s.faultValue = 2)) ∧
    (s.faultCause = .bounds → (s.faultValue < 0 ∨ (s.memLen : Int) ≤ s.faultValue) ∧
      ((s.faultAccess = some .fetchOpcode ∧ s.faultValue = (s.pc : Int)) ∨
       (s.faultAccess = some .fetchOperandAddr ∧
        ∃ k : Nat, 1 ≤ k ∧ k ≤ 3 ∧ s.faultValue = (s.pc : Int) + (k : Int)) ∨
       (s.faultAccess = some .readOperandA ∧ s.faultValue = s.mem.read (s.pc + 1)) ∨
       (s.faultAccess = some .readOperandB ∧ s.faultValue = s.mem.read (s.pc + 2)) ∨
       (s.faultAccess = some .writeResult ∧ s.faultValue = s.mem.read (s.pc + 3)) ∨
       (s.faultAccess = some .hostSeed ∧ s.faultPc = 0 ∧ (s.faultValue = 1 ∨ s.faultValue = 2))))

/-- R130: the states of a run depend only on the image, the seed and the configuration: two blocks of one configuration that
are loaded with one image are the same state from then on, and STATUS polling has no effect. -/
def Obligations.RunDependsOnImageSeedAndConfiguration : Prop :=
  (∀ (s s' : State) (image : List Int) (seed : Option (Int × Int)), s.cfg = s'.cfg → s.rs ≠ .running → s'.rs ≠ .running →
    image.length ≤ s.cfg.memDepth →
    (∃ t, transact (.load image) s = (.ok, t) ∧ transact (.load image) s' = (.ok, t)) ∧
    driverRun image seed s = driverRun image seed s') ∧
  (∀ (s : State) (n : Int), (transact (.status n) s).2 = s)

/-- The host's run (R121) of any image that fits, with any seed, ends, and what the host gets is read off the state the run ended
in (R122): word 0 of a halted block, or the fault record of a failed one. That state is the one the started block is in when it is
left to take its steps, within the bound of R81; or, where SEED responds BOUNDS, the one SEED left, and nothing is started. -/
def Obligations.DriverRunAlwaysEnds : Prop :=
  ∀ (s : State) (image : List Int), s.rs ≠ .running → image.length ≤ s.cfg.memDepth →
    ∃ s1, transact (.load image) s = (.ok, s1) ∧
      (∃ u, transact .start s1 = (.ok, u) ∧ (u.runFor u.stepBound).EndsWith (driverRun image none s)) ∧
      ∀ noun verb : Int,
        (∃ s2 u, transact (.seed noun verb) s1 = (.ok, s2) ∧ transact .start s2 = (.ok, u) ∧
          (u.runFor u.stepBound).EndsWith (driverRun image (some (noun, verb)) s)) ∨
        (∃ s2, transact (.seed noun verb) s1 = (.bounds, s2) ∧ s2.rs = .failed ∧
          s2.EndsWith (driverRun image (some (noun, verb)) s))
end

