-- ==== Sys2Proof/Laws/Alu.lean ====
section
/-! SUPPORT. The word range, wrapping, and what the ALU can answer. -/

namespace Sys2Proof.Machine

theorem inWord_zero (w : Nat) : InWord w 0 := by
  have : 0 < 2 ^ (w - 1) := Nat.two_pow_pos _
  simp only [InWord, minWord, maxWord]
  omega

theorem two_pow_pred {w : Nat} (hw : 1 ≤ w) : 2 ^ w = 2 * 2 ^ (w - 1) := by
  obtain ⟨k, rfl⟩ : ∃ k, w = k + 1 := ⟨w - 1, by omega⟩
  rw [Nat.add_sub_cancel, pow_succ, Nat.mul_comm]

/-- A wrapped value is in the word range (R10). -/
theorem wrapWord_inWord {w : Nat} (hw : 1 ≤ w) (v : Int) : InWord w (wrapWord w v) := by
  have h2 := two_pow_pred hw
  have hp : 0 < 2 ^ w := Nat.two_pow_pos _
  have hl := Int.le_bmod (x := v) hp
  have hu := Int.bmod_lt (x := v) hp
  simp only [InWord, minWord, maxWord, wrapWord]
  omega

/-- A value in the word range wraps to itself. -/
theorem wrapWord_of_inWord {w : Nat} (hw : 1 ≤ w) {v : Int} (h : InWord w v) : wrapWord w v = v := by
  have h2 := two_pow_pred hw
  simp only [InWord, minWord, maxWord] at h
  exact Int.bmod_eq_of_le (by omega) (by omega)

/-- The ALU's range check is the word range's complement (R83). -/
theorem overflows_iff (w : Nat) (v : Int) : overflows w v = true ↔ ¬ InWord w v := by
  simp only [overflows, InWord, Bool.or_eq_true, decide_eq_true_eq]
  omega

theorem alu_wrap {c : Config} (hm : c.overflowMode = .wrap) (k : AluKind) (a b : Int) :
    alu c k a b = .ok (wrapWord c.wordBits (k.exact a b)) := by simp [alu, hm]

theorem alu_checked_fits {c : Config} (hm : c.overflowMode = .checked) {k : AluKind} {a b : Int}
    (h : InWord c.wordBits (k.exact a b)) : alu c k a b = .ok (k.exact a b) := by
  have : overflows c.wordBits (k.exact a b) = false := by
    rw [← Bool.not_eq_true, overflows_iff]; exact not_not.2 h
  simp [alu, hm, this]

theorem alu_checked_overflow {c : Config} (hm : c.overflowMode = .checked) {k : AluKind} {a b : Int}
    (h : ¬ InWord c.wordBits (k.exact a b)) : alu c k a b = .error (.overflowError k.opcode) := by
  simp [alu, hm, (overflows_iff _ _).2 h]

/-- The ALU answers the wrapped result under WRAP, and the exact one under CHECKED where it fits; nothing else (R83). -/
theorem alu_ok_iff {c : Config} {k : AluKind} {a b r : Int} :
    alu c k a b = .ok r ↔
      (c.overflowMode = .wrap ∧ r = wrapWord c.wordBits (k.exact a b)) ∨
      (c.overflowMode = .checked ∧ InWord c.wordBits (k.exact a b) ∧ r = k.exact a b) := by
  cases hm : c.overflowMode with
  | wrap => rw [alu_wrap hm]; simp [eq_comm]
  | checked =>
    by_cases h : InWord c.wordBits (k.exact a b)
    · rw [alu_checked_fits hm h, Except.ok.injEq]
      exact ⟨fun e => .inr ⟨rfl, h, e.symm⟩, fun e => by rcases e with ⟨e, -⟩ | ⟨-, -, e⟩; exacts [(nomatch e), e.symm]⟩
    · rw [alu_checked_overflow hm h]
      exact ⟨fun e => (nomatch e), fun e => by rcases e with ⟨e, -⟩ | ⟨-, e, -⟩; exacts [(nomatch e), absurd e h]⟩

/-- The ALU errs under CHECKED only, where the exact result is outside the word range, with OverflowError (R83, R97). -/
theorem alu_error_iff {c : Config} {k : AluKind} {a b : Int} {e : BlockError} :
    alu c k a b = .error e ↔
      c.overflowMode = .checked ∧ ¬ InWord c.wordBits (k.exact a b) ∧ e = .overflowError k.opcode := by
  cases hm : c.overflowMode with
  | wrap => rw [alu_wrap hm]; simp
  | checked =>
    by_cases h : InWord c.wordBits (k.exact a b)
    · rw [alu_checked_fits hm h]
      exact ⟨fun e => (nomatch e), fun e => absurd h e.2.1⟩
    · rw [alu_checked_overflow hm h, Except.error.injEq]
      exact ⟨fun e => ⟨rfl, h, e.symm⟩, fun e => e.2.2.symm⟩

/-- Whatever the mode, what the ALU answers is a word. -/
theorem alu_ok_inWord {c : Config} (hw : 1 ≤ c.wordBits) {k : AluKind} {a b r : Int} (h : alu c k a b = .ok r) :
    InWord c.wordBits r := by
  rcases alu_ok_iff.1 h with ⟨-, rfl⟩ | ⟨-, hr, rfl⟩
  · exact wrapWord_inWord hw _
  · exact hr

end Sys2Proof.Machine
end

