-- ==== Sys2Proof/Laws/Asm.lean ====
section
/-! SUPPORT. How many words the lines of an assembly program emit, and what its labels stand for. -/

namespace Sys2Proof

/-- A line emits as many words as its size says. -/
theorem emit_length {env : List (String × Nat)} {line : AsmLine} {ws : List Int} (h : emit env line = some ws) :
    ws.length = line.size := by
  cases line with
  | add p1 p2 p3 =>
    simp only [emit, Option.bind_eq_bind, Option.bind_eq_some_iff] at h
    obtain ⟨a, -, b, -, d, -, h⟩ := h
    cases h
    rfl
  | mul p1 p2 p3 =>
    simp only [emit, Option.bind_eq_bind, Option.bind_eq_some_iff] at h
    obtain ⟨a, -, b, -, d, -, h⟩ := h
    cases h
    rfl
  | halt =>
    cases h
    rfl
  | word v =>
    simp only [emit, Option.bind_eq_bind, Option.bind_eq_some_iff] at h
    obtain ⟨a, -, h⟩ := h
    cases h
    rfl
  | label name =>
    cases h
    rfl

/-- A sequence of lines emits the words of its first line and then those of the rest. -/
theorem emitAll_cons_eq_some {env : List (String × Nat)} {line : AsmLine} {rest : List AsmLine} {ws : List Int} :
    emitAll env (line :: rest) = some ws ↔
      ∃ xs ys, emit env line = some xs ∧ emitAll env rest = some ys ∧ ws = xs ++ ys := by
  simp only [emitAll, Option.bind_eq_bind, Option.bind_eq_some_iff, Option.pure_def, Option.some.injEq]
  constructor
  · rintro ⟨xs, hx, ys, hy, rfl⟩
    exact ⟨xs, ys, hx, hy, rfl⟩
  · rintro ⟨xs, ys, hx, hy, rfl⟩
    exact ⟨xs, hx, ys, hy, rfl⟩

/-- A sequence of lines emits as many words as their sizes together. -/
theorem emitAll_length {env : List (String × Nat)} {lines : List AsmLine} {ws : List Int}
    (h : emitAll env lines = some ws) : ws.length = (lines.map AsmLine.size).sum := by
  induction lines generalizing ws with
  | nil =>
    cases h
    rfl
  | cons line rest ih =>
    obtain ⟨xs, ys, hx, hy, rfl⟩ := emitAll_cons_eq_some.1 h
    simp [emit_length hx, ih hy]

/-- The first declaration of a name stands for the sizes of the lines before it (log 17). -/
theorem labels_lookup_of_first {before after : List AsmLine} {name : String} (h : AsmLine.label name ∉ before) (a : Nat) :
    (labels a (before ++ .label name :: after)).lookup name = some (a + (before.map AsmLine.size).sum) := by
  induction before generalizing a with
  | nil => simp [labels]
  | cons line rest ih =>
    simp only [List.mem_cons, not_or] at h
    cases line with
    | label n =>
      have hn : name ≠ n := fun e => h.1 (congrArg AsmLine.label e)
      simp [labels, List.lookup, beq_eq_false_iff_ne.2 hn, ih h.2, AsmLine.size]
    | add p1 p2 p3 => simp [labels, ih h.2, AsmLine.size, Nat.add_assoc]
    | mul p1 p2 p3 => simp [labels, ih h.2, AsmLine.size, Nat.add_assoc]
    | halt => simp [labels, ih h.2, AsmLine.size, Nat.add_assoc]
    | word v => simp [labels, ih h.2, AsmLine.size, Nat.add_assoc]

/-- A name that no line declares is in no list of labels (log 17). -/
theorem labels_lookup_of_not_mem {lines : List AsmLine} {name : String} (h : AsmLine.label name ∉ lines) (a : Nat) :
    (labels a lines).lookup name = none := by
  induction lines generalizing a with
  | nil => rfl
  | cons line rest ih =>
    simp only [List.mem_cons, not_or] at h
    cases line with
    | label n =>
      have hn : name ≠ n := fun e => h.1 (congrArg AsmLine.label e)
      simp [labels, List.lookup, beq_eq_false_iff_ne.2 hn, ih h.2]
    | add p1 p2 p3 => exact ih h.2 _
    | mul p1 p2 p3 => exact ih h.2 _
    | halt => exact ih h.2 _
    | word v => exact ih h.2 _

end Sys2Proof
end

