-- ==== Sys2Proof/Laws/Memory.lean ====
section
/-! SUPPORT. Memory contents: reads after writes, and that every operation keeps the canonical form. -/

namespace Sys2Proof.Machine

theorem Memory.wf_nil : Memory.wf [] := ⟨List.Pairwise.nil, by simp⟩

theorem Memory.wf_cons {k : Nat} {v : Int} {m : Memory} :
    Memory.wf ((k, v) :: m) ↔ (∀ c ∈ m, k < c.1) ∧ v ≠ 0 ∧ Memory.wf m := by
  simp only [Memory.wf, List.pairwise_cons, List.forall_mem_cons]
  tauto

/-- An address below every listed one is not listed. -/
theorem Memory.read_of_below (m : Memory) (a : Nat) (h : ∀ c ∈ m, a < c.1) : m.read a = 0 := by
  induction m with
  | nil => rfl
  | cons c rest ih =>
    obtain ⟨k, u⟩ := c
    have hk : a < k := h (k, u) (by simp)
    rw [Memory.read, if_neg (by omega), ih fun c hc => h c (by simp [hc])]

/-- A listed word is what its address reads as. -/
theorem Memory.read_of_mem (m : Memory) (hm : m.wf) {a : Nat} {v : Int} (h : (a, v) ∈ m) : m.read a = v := by
  induction m with
  | nil => cases h
  | cons c rest ih =>
    obtain ⟨k, u⟩ := c
    obtain ⟨hk, -, hr⟩ := Memory.wf_cons.1 hm
    rcases List.mem_cons.1 h with h | h
    · cases h
      simp [Memory.read]
    · have : k < a := hk _ h
      rw [Memory.read, if_neg (by omega), ih hr h]

/-- An address reads as 0 or is listed. -/
theorem Memory.read_cases (m : Memory) (a : Nat) : m.read a = 0 ∨ (a, m.read a) ∈ m := by
  induction m with
  | nil => exact .inl rfl
  | cons c rest ih =>
    obtain ⟨k, u⟩ := c
    by_cases hk : k = a
    · exact .inr (by simp [Memory.read, hk])
    · simpa [Memory.read, hk] using ih.imp id fun h => Or.inr h

theorem Memory.read_write_same (m : Memory) (hm : m.wf) (a : Nat) (v : Int) : (m.write a v).read a = v := by
  induction m with
  | nil => by_cases hv : v = 0 <;> simp [Memory.write, Memory.read, hv]
  | cons c rest ih =>
    obtain ⟨k, u⟩ := c
    obtain ⟨hk, -, hr⟩ := Memory.wf_cons.1 hm
    rw [Memory.write]
    split
    · rw [Memory.read, if_neg (by omega), ih hr]
    · split
      · subst k
        split
        · rw [Memory.read_of_below rest a hk, ‹v = 0›]
        · simp [Memory.read]
      · split
        · rw [Memory.read_of_below _ a, ‹v = 0›]
          intro c hc
          rcases List.mem_cons.1 hc with rfl | hc
          · show a < k; omega
          · have := hk c hc; omega
        · simp [Memory.read]

theorem Memory.read_write_other (m : Memory) (a b : Nat) (v : Int) (h : b ≠ a) :
    (m.write a v).read b = m.read b := by
  induction m with
  | nil => by_cases hv : v = 0 <;> simp [Memory.write, Memory.read, hv, h.symm]
  | cons c rest ih =>
    obtain ⟨k, u⟩ := c
    rw [Memory.write]
    split
    · simp only [Memory.read, ih]
    · split
      · subst k
        split <;> simp [Memory.read, h.symm]
      · split <;> simp [Memory.read, h.symm]

/-- The one law of `write` for a canonical memory. -/
theorem Memory.read_write (m : Memory) (hm : m.wf) (a b : Nat) (v : Int) :
    (m.write a v).read b = if b = a then v else m.read b := by
  split
  · subst b; exact m.read_write_same hm a v
  · exact m.read_write_other a b v ‹_›

/-- What a written memory lists: cells it listed before, and the one written. -/
theorem Memory.mem_write (m : Memory) (a : Nat) (v : Int) {c : Cell} (h : c ∈ m.write a v) :
    c ∈ m ∨ (c = (a, v) ∧ v ≠ 0) := by
  induction m with
  | nil =>
    by_cases hv : v = 0
    · simp [Memory.write, hv] at h
    · exact .inr ⟨by simpa [Memory.write, hv] using h, hv⟩
  | cons d rest ih =>
    obtain ⟨k, u⟩ := d
    rw [Memory.write] at h
    split at h
    · rcases List.mem_cons.1 h with h | h
      · exact .inl (by simp [h])
      · exact (ih h).imp (fun h => by simp [h]) id
    · split at h
      · split at h
        · exact .inl (by simp [h])
        · rcases List.mem_cons.1 h with h | h
          · exact .inr ⟨h, ‹_›⟩
          · exact .inl (by simp [h])
      · split at h
        · exact .inl h
        · rcases List.mem_cons.1 h with h | h
          · exact .inr ⟨h, ‹_›⟩
          · exact .inl h

theorem Memory.wf_write (m : Memory) (hm : m.wf) (a : Nat) (v : Int) : (m.write a v).wf := by
  induction m with
  | nil => by_cases hv : v = 0 <;> simp [Memory.write, Memory.wf, hv]
  | cons c rest ih =>
    obtain ⟨k, u⟩ := c
    obtain ⟨hk, hu, hr⟩ := Memory.wf_cons.1 hm
    rw [Memory.write]
    split
    · refine Memory.wf_cons.2 ⟨fun c hc => ?_, hu, ih hr⟩
      rcases Memory.mem_write rest a v hc with hc | ⟨rfl, -⟩
      · exact hk c hc
      · assumption
    · split
      · subst k
        split
        · exact hr
        · exact Memory.wf_cons.2 ⟨hk, ‹_›, hr⟩
      · split
        · exact hm
        · refine Memory.wf_cons.2 ⟨fun c hc => ?_, ‹_›, hm⟩
          rcases List.mem_cons.1 hc with rfl | hc
          · show a < k; omega
          · have := hk c hc; omega

/-! ### A memory from a list of words -/

theorem Memory.mem_ofWords (a : Nat) (vs : List Int) {c : Cell} (h : c ∈ Memory.ofWords a vs) :
    a ≤ c.1 ∧ c.1 < a + vs.length ∧ c.2 ∈ vs ∧ c.2 ≠ 0 := by
  induction vs generalizing a with
  | nil => simp [Memory.ofWords] at h
  | cons v vs ih =>
    have later : c ∈ Memory.ofWords (a + 1) vs → a ≤ c.1 ∧ c.1 < a + (v :: vs).length ∧ c.2 ∈ v :: vs ∧ c.2 ≠ 0 := by
      intro h
      obtain ⟨h1, h2, h3, h4⟩ := ih (a + 1) h
      simp only [List.length_cons]
      exact ⟨by omega, by omega, by simp [h3], h4⟩
    rw [Memory.ofWords] at h
    split at h
    · exact later h
    · rcases List.mem_cons.1 h with rfl | h
      · simp only [List.length_cons]
        exact ⟨by simp, by simp, by simp, ‹_›⟩
      · exact later h

theorem Memory.wf_ofWords (a : Nat) (vs : List Int) : (Memory.ofWords a vs).wf := by
  induction vs generalizing a with
  | nil => exact Memory.wf_nil
  | cons v vs ih =>
    rw [Memory.ofWords]
    split
    · exact ih _
    · refine Memory.wf_cons.2 ⟨fun c hc => ?_, ‹_›, ih _⟩
      have := (Memory.mem_ofWords _ _ hc).1
      omega

theorem Memory.read_ofWords (a : Nat) (vs : List Int) (i : Nat) :
    (Memory.ofWords a vs).read (a + i) = vs.getD i 0 := by
  induction vs generalizing a i with
  | nil => simp [Memory.ofWords, Memory.read]
  | cons v vs ih =>
    rw [Memory.ofWords]
    cases i with
    | zero =>
      split
      · rw [Memory.read_of_below _ _ fun c hc => ?_]
        · simp [*]
        · have := (Memory.mem_ofWords _ _ hc).1; omega
      · simp [Memory.read]
    | succ i =>
      have h := ih (a + 1) i
      rw [show a + 1 + i = a + (i + 1) by omega] at h
      split
      · simpa using h
      · rw [Memory.read, if_neg (by omega), h]
        simp

/-! ### Words written at consecutive addresses -/

theorem Memory.wf_writeWords (m : Memory) (hm : m.wf) (a : Nat) (vs : List Int) : (m.writeWords a vs).wf := by
  induction vs generalizing m a with
  | nil => exact hm
  | cons v vs ih => exact ih _ (Memory.wf_write m hm a v) _

theorem Memory.read_writeWords (m : Memory) (hm : m.wf) (a : Nat) (vs : List Int) (b : Nat) :
    (m.writeWords a vs).read b = if a ≤ b ∧ b < a + vs.length then vs.getD (b - a) 0 else m.read b := by
  induction vs generalizing m a with
  | nil => rw [if_neg (by simp)]; rfl
  | cons v vs ih =>
    rw [Memory.writeWords, ih _ (Memory.wf_write m hm a v), Memory.read_write m hm]
    simp only [List.length_cons]
    by_cases h1 : b = a
    · subst h1; simp
    · by_cases h2 : a + 1 ≤ b ∧ b < a + 1 + vs.length
      · rw [if_pos h2, if_pos (by omega), show b - a = (b - (a + 1)) + 1 by omega]
        simp
      · rw [if_neg h2, if_neg h1, if_neg (by omega)]

end Sys2Proof.Machine
end

