-- ==== Sys2Proof/Laws/State.lean ====
section
/-! SUPPORT. Each update of the state, field by field. -/

namespace Sys2Proof.Machine

/-! ### Memory replaced -/

@[simp] theorem State.setMem_cfg (s : State) (m : Memory) : (s.setMem m).cfg = s.cfg := rfl
@[simp] theorem State.setMem_memLen (s : State) (m : Memory) : (s.setMem m).memLen = s.memLen := rfl
@[simp] theorem State.setMem_mem (s : State) (m : Memory) : (s.setMem m).mem = m := rfl
@[simp] theorem State.setMem_pc (s : State) (m : Memory) : (s.setMem m).pc = s.pc := rfl
@[simp] theorem State.setMem_rs (s : State) (m : Memory) : (s.setMem m).rs = s.rs := rfl
@[simp] theorem State.setMem_faultCause (s : State) (m : Memory) : (s.setMem m).faultCause = s.faultCause := rfl
@[simp] theorem State.setMem_faultAccess (s : State) (m : Memory) : (s.setMem m).faultAccess = s.faultAccess := rfl
@[simp] theorem State.setMem_faultValue (s : State) (m : Memory) : (s.setMem m).faultValue = s.faultValue := rfl
@[simp] theorem State.setMem_faultPc (s : State) (m : Memory) : (s.setMem m).faultPc = s.faultPc := rfl

/-! ### The pc advanced (R77) -/

@[simp] theorem State.advancePc_cfg (s : State) : (s.advancePc).cfg = s.cfg := rfl
@[simp] theorem State.advancePc_memLen (s : State) : (s.advancePc).memLen = s.memLen := rfl
@[simp] theorem State.advancePc_mem (s : State) : (s.advancePc).mem = s.mem := rfl
@[simp] theorem State.advancePc_pc (s : State) : (s.advancePc).pc = s.pc + 4 := rfl
@[simp] theorem State.advancePc_rs (s : State) : (s.advancePc).rs = s.rs := rfl
@[simp] theorem State.advancePc_faultCause (s : State) : (s.advancePc).faultCause = s.faultCause := rfl
@[simp] theorem State.advancePc_faultAccess (s : State) : (s.advancePc).faultAccess = s.faultAccess := rfl
@[simp] theorem State.advancePc_faultValue (s : State) : (s.advancePc).faultValue = s.faultValue := rfl
@[simp] theorem State.advancePc_faultPc (s : State) : (s.advancePc).faultPc = s.faultPc := rfl

/-! ### The run state written -/

@[simp] theorem State.setRunState_cfg (s : State) (r : RunState) : (s.setRunState r).cfg = s.cfg := rfl
@[simp] theorem State.setRunState_memLen (s : State) (r : RunState) : (s.setRunState r).memLen = s.memLen := rfl
@[simp] theorem State.setRunState_mem (s : State) (r : RunState) : (s.setRunState r).mem = s.mem := rfl
@[simp] theorem State.setRunState_pc (s : State) (r : RunState) : (s.setRunState r).pc = s.pc := rfl
@[simp] theorem State.setRunState_rs (s : State) (r : RunState) : (s.setRunState r).rs = r := rfl
@[simp] theorem State.setRunState_faultCause (s : State) (r : RunState) : (s.setRunState r).faultCause = s.faultCause := rfl
@[simp] theorem State.setRunState_faultAccess (s : State) (r : RunState) : (s.setRunState r).faultAccess = s.faultAccess := rfl
@[simp] theorem State.setRunState_faultValue (s : State) (r : RunState) : (s.setRunState r).faultValue = s.faultValue := rfl
@[simp] theorem State.setRunState_faultPc (s : State) (r : RunState) : (s.setRunState r).faultPc = s.faultPc := rfl

/-! ### Fault entry (R99) -/

@[simp] theorem State.raise_cfg (s : State) (e : BlockError) : (s.raise e).cfg = s.cfg := rfl
@[simp] theorem State.raise_memLen (s : State) (e : BlockError) : (s.raise e).memLen = s.memLen := rfl
@[simp] theorem State.raise_mem (s : State) (e : BlockError) : (s.raise e).mem = s.mem := rfl
@[simp] theorem State.raise_pc (s : State) (e : BlockError) : (s.raise e).pc = s.pc := rfl
@[simp] theorem State.raise_rs (s : State) (e : BlockError) : (s.raise e).rs = .failed := rfl
@[simp] theorem State.raise_faultCause (s : State) (e : BlockError) : (s.raise e).faultCause = e.cause := rfl
@[simp] theorem State.raise_faultAccess (s : State) (e : BlockError) : (s.raise e).faultAccess = e.access := rfl
@[simp] theorem State.raise_faultValue (s : State) (e : BlockError) : (s.raise e).faultValue = e.value := rfl
@[simp] theorem State.raise_faultPc (s : State) (e : BlockError) : (s.raise e).faultPc = s.pc := rfl

/-! ### Reset (R32) -/

@[simp] theorem State.resetWith_cfg (c : Config) : (State.resetWith c).cfg = c := rfl
@[simp] theorem State.resetWith_memLen (c : Config) : (State.resetWith c).memLen = 0 := rfl
@[simp] theorem State.resetWith_mem (c : Config) : (State.resetWith c).mem = [] := rfl
@[simp] theorem State.resetWith_pc (c : Config) : (State.resetWith c).pc = 0 := rfl
@[simp] theorem State.resetWith_rs (c : Config) : (State.resetWith c).rs = .idle := rfl
@[simp] theorem State.resetWith_faultCause (c : Config) : (State.resetWith c).faultCause = .none := rfl
@[simp] theorem State.resetWith_faultAccess (c : Config) : (State.resetWith c).faultAccess = none := rfl
@[simp] theorem State.resetWith_faultValue (c : Config) : (State.resetWith c).faultValue = 0 := rfl
@[simp] theorem State.resetWith_faultPc (c : Config) : (State.resetWith c).faultPc = 0 := rfl

/-! ### LOAD (R114) -/

@[simp] theorem State.loaded_cfg (s : State) (image : List Int) : (s.loaded image).cfg = s.cfg := rfl
@[simp] theorem State.loaded_memLen (s : State) (image : List Int) : (s.loaded image).memLen = image.length := rfl
@[simp] theorem State.loaded_mem (s : State) (image : List Int) : (s.loaded image).mem = Memory.ofWords 0 image := rfl
@[simp] theorem State.loaded_pc (s : State) (image : List Int) : (s.loaded image).pc = 0 := rfl
@[simp] theorem State.loaded_rs (s : State) (image : List Int) : (s.loaded image).rs = .idle := rfl
@[simp] theorem State.loaded_faultCause (s : State) (image : List Int) : (s.loaded image).faultCause = .none := rfl
@[simp] theorem State.loaded_faultAccess (s : State) (image : List Int) : (s.loaded image).faultAccess = none := rfl
@[simp] theorem State.loaded_faultValue (s : State) (image : List Int) : (s.loaded image).faultValue = 0 := rfl
@[simp] theorem State.loaded_faultPc (s : State) (image : List Int) : (s.loaded image).faultPc = 0 := rfl

/-! ### Words placed where the step fetches (log 7) -/

@[simp] theorem State.placeAtPc_cfg (s : State) (ws : List Int) : (s.placeAtPc ws).cfg = s.cfg := rfl
@[simp] theorem State.placeAtPc_memLen (s : State) (ws : List Int) : (s.placeAtPc ws).memLen = max s.memLen (s.pc + ws.length) := rfl
@[simp] theorem State.placeAtPc_mem (s : State) (ws : List Int) : (s.placeAtPc ws).mem = s.mem.writeWords s.pc ws := rfl
@[simp] theorem State.placeAtPc_pc (s : State) (ws : List Int) : (s.placeAtPc ws).pc = s.pc := rfl
@[simp] theorem State.placeAtPc_rs (s : State) (ws : List Int) : (s.placeAtPc ws).rs = .running := rfl
@[simp] theorem State.placeAtPc_faultCause (s : State) (ws : List Int) : (s.placeAtPc ws).faultCause = s.faultCause := rfl
@[simp] theorem State.placeAtPc_faultAccess (s : State) (ws : List Int) : (s.placeAtPc ws).faultAccess = s.faultAccess := rfl
@[simp] theorem State.placeAtPc_faultValue (s : State) (ws : List Int) : (s.placeAtPc ws).faultValue = s.faultValue := rfl
@[simp] theorem State.placeAtPc_faultPc (s : State) (ws : List Int) : (s.placeAtPc ws).faultPc = s.faultPc := rfl

end Sys2Proof.Machine
end

