-- ==== Sys2Proof/Laws/Ops.lean ====
section
/-! SUPPORT. What the two memory primitives can answer. -/

namespace Sys2Proof.Machine

theorem State.memRead_inBounds {s : State} {addr : Int} (h : s.inBounds addr) (acc : Access) :
    s.memRead addr acc = .ok (s.mem.read addr.toNat) := if_pos h

theorem State.memRead_outOfBounds {s : State} {addr : Int} (h : ¬ s.inBounds addr) (acc : Access) :
    s.memRead addr acc = .error (.boundsError addr acc) := if_neg h

theorem State.memWrite_inBounds {s : State} {addr : Int} (h : s.inBounds addr) (v : Int) (acc : Access) :
    s.memWrite addr v acc = .ok (s.setMem (s.mem.write addr.toNat v)) := if_pos h

theorem State.memWrite_outOfBounds {s : State} {addr : Int} (h : ¬ s.inBounds addr) (v : Int) (acc : Access) :
    s.memWrite addr v acc = .error (.boundsError addr acc) := if_neg h

/-- A read answers the word at an address in bounds, and nothing else (R36). -/
theorem State.memRead_ok_iff {s : State} {addr : Int} {acc : Access} {v : Int} :
    s.memRead addr acc = .ok v ↔ s.inBounds addr ∧ v = s.mem.read addr.toNat := by
  by_cases h : s.inBounds addr
  · rw [memRead_inBounds h, Except.ok.injEq]
    exact ⟨fun e => ⟨h, e.symm⟩, fun e => e.2.symm⟩
  · rw [memRead_outOfBounds h]
    exact ⟨fun e => (nomatch e), fun e => absurd e.1 h⟩

/-- A read errs out of bounds only, with BoundsError (R36, R39). -/
theorem State.memRead_error_iff {s : State} {addr : Int} {acc : Access} {e : BlockError} :
    s.memRead addr acc = .error e ↔ ¬ s.inBounds addr ∧ e = .boundsError addr acc := by
  by_cases h : s.inBounds addr
  · rw [memRead_inBounds h]
    exact ⟨fun e => (nomatch e), fun e => absurd h e.1⟩
  · rw [memRead_outOfBounds h, Except.error.injEq]
    exact ⟨fun e => ⟨h, e.symm⟩, fun e => e.2.symm⟩

/-- A write answers the memory with that one word replaced, at an address in bounds, and nothing else (R37). -/
theorem State.memWrite_ok_iff {s t : State} {addr : Int} {v : Int} {acc : Access} :
    s.memWrite addr v acc = .ok t ↔ s.inBounds addr ∧ t = s.setMem (s.mem.write addr.toNat v) := by
  by_cases h : s.inBounds addr
  · rw [memWrite_inBounds h, Except.ok.injEq]
    exact ⟨fun e => ⟨h, e.symm⟩, fun e => e.2.symm⟩
  · rw [memWrite_outOfBounds h]
    exact ⟨fun e => (nomatch e), fun e => absurd e.1 h⟩

/-- A write errs out of bounds only, with BoundsError (R37, R39). -/
theorem State.memWrite_error_iff {s : State} {addr : Int} {v : Int} {acc : Access} {e : BlockError} :
    s.memWrite addr v acc = .error e ↔ ¬ s.inBounds addr ∧ e = .boundsError addr acc := by
  by_cases h : s.inBounds addr
  · rw [memWrite_inBounds h]
    exact ⟨fun e => (nomatch e), fun e => absurd h e.1⟩
  · rw [memWrite_outOfBounds h, Except.error.injEq]
    exact ⟨fun e => ⟨h, e.symm⟩, fun e => e.2.symm⟩

/-- An address in bounds is a natural number below N. -/
theorem State.inBounds_natCast {s : State} {a : Nat} : s.inBounds (a : Int) ↔ a < s.memLen := by
  simp [State.inBounds]

end Sys2Proof.Machine
end

