-- ==== Sys2Proof/Laws/Exec.lean ====
section
/-! SUPPORT. Everything the meanings can do. -/

namespace Sys2Proof.Machine

/-- Everything Add and Mul can do: one of the four faults, in the order they are checked, or the write and the advance
(R84, R85, R101). -/
theorem execArith_cases {k : AluKind} {p1 p2 p3 : Int} {s t : State} (h : execArith k p1 p2 p3 s = .next t) :
    (¬ s.inBounds p1 ∧ t = s.raise (.boundsError p1 .readOperandA)) ∨
    (s.inBounds p1 ∧ ¬ s.inBounds p2 ∧ t = s.raise (.boundsError p2 .readOperandB)) ∨
    (s.inBounds p1 ∧ s.inBounds p2 ∧ s.cfg.overflowMode = .checked ∧
      ¬ InWord s.cfg.wordBits (k.exact (s.mem.read p1.toNat) (s.mem.read p2.toNat)) ∧
      t = s.raise (.overflowError k.opcode)) ∨
    (∃ r, s.inBounds p1 ∧ s.inBounds p2 ∧ alu s.cfg k (s.mem.read p1.toNat) (s.mem.read p2.toNat) = .ok r ∧
      ¬ s.inBounds p3 ∧ t = s.raise (.boundsError p3 .writeResult)) ∨
    (∃ r, s.inBounds p1 ∧ s.inBounds p2 ∧ alu s.cfg k (s.mem.read p1.toNat) (s.mem.read p2.toNat) = .ok r ∧
      s.inBounds p3 ∧ t = (s.setMem (s.mem.write p3.toNat r)).advancePc) := by
  by_cases h1 : s.inBounds p1
  swap
  · simp only [execArith, State.operandA, State.memRead_outOfBounds h1, Host.Outcome.next.injEq] at h
    exact .inl ⟨h1, h.symm⟩
  by_cases h2 : s.inBounds p2
  swap
  · simp only [execArith, State.operandA, State.operandB, State.memRead_inBounds h1,
      State.memRead_outOfBounds h2, Host.Outcome.next.injEq] at h
    exact .inr (.inl ⟨h1, h2, h.symm⟩)
  simp only [execArith, State.operandA, State.operandB, State.memRead_inBounds h1,
    State.memRead_inBounds h2] at h
  cases hr : alu s.cfg k (s.mem.read p1.toNat) (s.mem.read p2.toNat) with
  | error e =>
    obtain ⟨hm, hw, rfl⟩ := alu_error_iff.1 hr
    simp only [hr, Host.Outcome.next.injEq] at h
    exact .inr (.inr (.inl ⟨h1, h2, hm, hw, h.symm⟩))
  | ok r =>
    by_cases h3 : s.inBounds p3
    · simp only [hr, State.writeResult, State.memWrite_inBounds h3, Host.Outcome.next.injEq] at h
      exact .inr (.inr (.inr (.inr ⟨r, h1, h2, rfl, h3, h.symm⟩)))
    · simp only [hr, State.writeResult, State.memWrite_outOfBounds h3, Host.Outcome.next.injEq] at h
      exact .inr (.inr (.inr (.inl ⟨r, h1, h2, rfl, h3, h.symm⟩)))

/-- Add and Mul complete where their addresses are in bounds and the ALU answers (R84, R85). -/
theorem execArith_of_ok {s : State} {k : AluKind} {p1 p2 p3 r : Int} (h1 : s.inBounds p1) (h2 : s.inBounds p2)
    (h3 : s.inBounds p3) (h : alu s.cfg k (s.mem.read p1.toNat) (s.mem.read p2.toNat) = .ok r) :
    execArith k p1 p2 p3 s = .next (s.setMem (s.mem.write p3.toNat r)).advancePc := by
  simp only [execArith, State.operandA, State.operandB, State.writeResult, State.memRead_inBounds h1,
    State.memRead_inBounds h2, State.memWrite_inBounds h3, h]

/-- Add and Mul always answer a next state. -/
theorem execArith_next (k : AluKind) (p1 p2 p3 : Int) (s : State) : ∃ t, execArith k p1 p2 p3 s = .next t := by
  rw [execArith]
  split
  · exact ⟨_, rfl⟩
  · split
    · exact ⟨_, rfl⟩
    · split
      · exact ⟨_, rfl⟩
      · split <;> exact ⟨_, rfl⟩

@[simp] theorem exec_add (p1 p2 p3 : Int) (s : State) : exec (.add p1 p2 p3) s = execArith .add p1 p2 p3 s := rfl

@[simp] theorem exec_mul (p1 p2 p3 : Int) (s : State) : exec (.mul p1 p2 p3) s = execArith .mul p1 p2 p3 s := rfl

@[simp] theorem exec_halt (s : State) : exec .halt s = .next (s.setRunState .halted) := rfl

/-- Every instruction always answers a next state. -/
theorem exec_next (i : Instr) (s : State) : ∃ t, exec i s = .next t := by
  cases i with
  | add p1 p2 p3 => exact execArith_next .add p1 p2 p3 s
  | mul p1 p2 p3 => exact execArith_next .mul p1 p2 p3 s
  | halt => exact ⟨_, rfl⟩

end Sys2Proof.Machine
end

