-- ==== Sys2Proof/Laws/Step.lean ====
section
/-! SUPPORT. Everything a fetch and a step can do. -/

namespace Sys2Proof.Machine

/-- The k-th word after the opcode, as an integer address. -/
theorem State.fetchOperandAddrs_ok {s : State} {n k : Nat} {ps : List Int}
    (h : s.fetchOperandAddrs n k = .ok ps) :
    ps = (List.range n).map (fun j => s.mem.read (s.pc + k + j)) ∧ (n = 0 ∨ s.pc + k + n ≤ s.memLen) := by
  induction n generalizing k ps with
  | zero =>
    cases h
    exact ⟨rfl, .inl rfl⟩
  | succ n ih =>
    rw [State.fetchOperandAddrs] at h
    split at h
    · cases h
    · rename_i p hp
      obtain ⟨hb, rfl⟩ := State.memRead_ok_iff.1 hp
      split at h
      · cases h
      · rename_i qs hqs
        cases h
        obtain ⟨rfl, hn⟩ := ih hqs
        have e : ((s.pc : Int) + (k : Int)).toNat = s.pc + k := by omega
        constructor
        · rw [List.range_succ_eq_map, List.map_cons, List.map_map, e]
          exact congrArg₂ List.cons rfl
            (List.map_congr_left fun j _ => congrArg s.mem.read (by simp only [Nat.succ_eq_add_one]; omega))
        · right
          rcases hn with rfl | hn
          · have := hb.2; omega
          · omega

/-- The first of the words that is out of bounds is the error, with its address (R71). -/
theorem State.fetchOperandAddrs_error {s : State} {n k : Nat} {e : BlockError} (hk : s.pc + k ≤ s.memLen)
    (h : s.fetchOperandAddrs n k = .error e) :
    s.memLen < s.pc + k + n ∧ e = .boundsError (s.memLen : Int) .fetchOperandAddr := by
  induction n generalizing k with
  | zero => cases h
  | succ n ih =>
    rw [State.fetchOperandAddrs] at h
    split at h
    · rename_i e' he
      cases h
      obtain ⟨hb, rfl⟩ := State.memRead_error_iff.1 he
      have : ¬ s.pc + k < s.memLen := fun hlt => hb ⟨by omega, by omega⟩
      exact ⟨by omega, by rw [show ((s.pc : Int) + (k : Int)) = (s.memLen : Int) by omega]⟩
    · rename_i p hp
      obtain ⟨hb, -⟩ := State.memRead_ok_iff.1 hp
      split at h
      · rename_i e' he
        cases h
        obtain ⟨h1, h2⟩ := ih (k := k + 1) (by have := hb.2; omega) he
        exact ⟨by omega, h2⟩
      · cases h

/-- Everything a fetch can do, in the order of R68: the opcode out of bounds; an illegal opcode; Halt; or the kind of an
A4 instruction, with its operand words out of bounds or in bounds. -/
theorem State.fetch_cases (s : State) :
    (s.memLen ≤ s.pc ∧ s.fetch = .error (.boundsError (s.pc : Int) .fetchOpcode)) ∨
    (s.pc < s.memLen ∧ operandCount (s.mem.read s.pc) = none ∧
      s.fetch = .error (.decodeError (s.mem.read s.pc))) ∨
    (s.pc < s.memLen ∧ s.mem.read s.pc = haltCode ∧ s.fetch = .ok .halt) ∨
    (s.pc < s.memLen ∧ s.memLen < s.pc + 4 ∧ (s.mem.read s.pc = addCode ∨ s.mem.read s.pc = mulCode) ∧
      s.fetch = .error (.boundsError (s.memLen : Int) .fetchOperandAddr)) ∨
    (s.pc + 4 ≤ s.memLen ∧ s.mem.read s.pc = addCode ∧
      s.fetch = .ok (.add (s.mem.read (s.pc + 1)) (s.mem.read (s.pc + 2)) (s.mem.read (s.pc + 3)))) ∨
    (s.pc + 4 ≤ s.memLen ∧ s.mem.read s.pc = mulCode ∧
      s.fetch = .ok (.mul (s.mem.read (s.pc + 1)) (s.mem.read (s.pc + 2)) (s.mem.read (s.pc + 3)))) := by
  by_cases hpc : s.pc < s.memLen
  swap
  · left
    refine ⟨by omega, ?_⟩
    rw [State.fetch, State.memRead_outOfBounds (fun h => hpc (State.inBounds_natCast.1 h))]
  right
  have hop : s.memRead (s.pc : Int) .fetchOpcode = .ok (s.mem.read s.pc) :=
    State.memRead_inBounds (State.inBounds_natCast.2 hpc) _
  have operands : ∀ ps, s.fetchOperandAddrs 3 1 = .ok ps →
      ps = [s.mem.read (s.pc + 1), s.mem.read (s.pc + 2), s.mem.read (s.pc + 3)] ∧ s.pc + 4 ≤ s.memLen := by
    intro ps h
    obtain ⟨rfl, h⟩ := State.fetchOperandAddrs_ok h
    refine ⟨rfl, by omega⟩
  by_cases h1 : s.mem.read s.pc = addCode
  · cases h : s.fetchOperandAddrs 3 1 with
    | error e =>
      obtain ⟨hN, rfl⟩ := State.fetchOperandAddrs_error (by omega) h
      exact .inr (.inr (.inl ⟨hpc, by omega, .inl h1, by simp [State.fetch, hop, operandCount, h1, h]⟩))
    | ok ps =>
      obtain ⟨rfl, hN⟩ := operands ps h
      exact .inr (.inr (.inr (.inl ⟨hN, h1, by simp [State.fetch, hop, operandCount, h1, h, decode]⟩)))
  by_cases h2 : s.mem.read s.pc = mulCode
  · have h21 : ¬ mulCode = addCode := by decide
    cases h : s.fetchOperandAddrs 3 1 with
    | error e =>
      obtain ⟨hN, rfl⟩ := State.fetchOperandAddrs_error (by omega) h
      exact .inr (.inr (.inl ⟨hpc, by omega, .inr h2, by simp [State.fetch, hop, operandCount, h2, h]⟩))
    | ok ps =>
      obtain ⟨rfl, hN⟩ := operands ps h
      exact .inr (.inr (.inr (.inr ⟨hN, h2, by simp [State.fetch, hop, operandCount, h2, h21, h, decode]⟩)))
  by_cases h3 : s.mem.read s.pc = haltCode
  · have h31 : ¬ haltCode = addCode := by decide
    have h32 : ¬ haltCode = mulCode := by decide
    exact .inr (.inl ⟨hpc, h3, by
      simp [State.fetch, hop, operandCount, h3, h31, h32, decode, State.fetchOperandAddrs]⟩)
  · have hn : operandCount (s.mem.read s.pc) = none := by simp [operandCount, h1, h2, h3]
    exact .inl ⟨hpc, hn, by simp [State.fetch, hop, hn]⟩

/-- An illegal opcode is one of none of the three values (R60). -/
theorem operandCount_eq_none {op : Int} :
    operandCount op = none ↔ op ≠ addCode ∧ op ≠ mulCode ∧ op ≠ haltCode := by
  simp only [operandCount]
  split_ifs <;> simp_all

/-- The fetch of an Add inside memory. -/
theorem State.fetch_add {s : State} (hN : s.pc + 4 ≤ s.memLen) (hop : s.mem.read s.pc = addCode) :
    s.fetch = .ok (.add (s.mem.read (s.pc + 1)) (s.mem.read (s.pc + 2)) (s.mem.read (s.pc + 3))) := by
  rcases s.fetch_cases with ⟨h, -⟩ | ⟨-, h, -⟩ | ⟨-, h, -⟩ | ⟨-, h, -, -⟩ | ⟨-, -, h⟩ | ⟨-, h, -⟩
  · omega
  · exact absurd hop (operandCount_eq_none.1 h).1
  · exact absurd (hop.symm.trans h) (by decide)
  · omega
  · exact h
  · exact absurd (hop.symm.trans h) (by decide)

/-- The fetch of a Mul inside memory. -/
theorem State.fetch_mul {s : State} (hN : s.pc + 4 ≤ s.memLen) (hop : s.mem.read s.pc = mulCode) :
    s.fetch = .ok (.mul (s.mem.read (s.pc + 1)) (s.mem.read (s.pc + 2)) (s.mem.read (s.pc + 3))) := by
  rcases s.fetch_cases with ⟨h, -⟩ | ⟨-, h, -⟩ | ⟨-, h, -⟩ | ⟨-, h, -, -⟩ | ⟨-, h, -⟩ | ⟨-, -, h⟩
  · omega
  · exact absurd hop (operandCount_eq_none.1 h).2.1
  · exact absurd (hop.symm.trans h) (by decide)
  · omega
  · exact absurd (hop.symm.trans h) (by decide)
  · exact h

/-- The fetch of a Halt, also as the last word of memory. -/
theorem State.fetch_halt {s : State} (hN : s.pc < s.memLen) (hop : s.mem.read s.pc = haltCode) :
    s.fetch = .ok .halt := by
  rcases s.fetch_cases with ⟨h, -⟩ | ⟨-, h, -⟩ | ⟨-, -, h⟩ | ⟨-, -, h | h, -⟩ | ⟨-, h, -⟩ | ⟨-, h, -⟩
  · omega
  · exact absurd hop (operandCount_eq_none.1 h).2.2
  · exact h
  all_goals exact absurd (hop.symm.trans h) (by decide)

/-- The fetch of any other word (R60, R75). -/
theorem State.fetch_illegal {s : State} (hN : s.pc < s.memLen) (hop : operandCount (s.mem.read s.pc) = none) :
    s.fetch = .error (.decodeError (s.mem.read s.pc)) := by
  obtain ⟨h1, h2, h3⟩ := operandCount_eq_none.1 hop
  rcases s.fetch_cases with ⟨h, -⟩ | ⟨-, -, h⟩ | ⟨-, h, -⟩ | ⟨-, -, h | h, -⟩ | ⟨-, h, -⟩ | ⟨-, h, -⟩
  · omega
  · exact h
  all_goals exact absurd h ‹_›

/-- A fetch depends on N, M and the pc alone (R80). -/
theorem State.fetch_congr {s t : State} (hN : t.memLen = s.memLen) (hM : t.mem = s.mem) (hp : t.pc = s.pc) :
    t.fetch = s.fetch := by
  have read : ∀ addr acc, t.memRead addr acc = s.memRead addr acc := by
    intro addr acc
    simp only [State.memRead, State.inBounds, hN, hM]
  have operands : ∀ n k, t.fetchOperandAddrs n k = s.fetchOperandAddrs n k := by
    intro n
    induction n with
    | zero => intro k; rfl
    | succ n ih => intro k; simp only [State.fetchOperandAddrs, read, ih, hp]
  simp only [State.fetch, read, operands, hp]

theorem step_of_fetch_ok {s : State} {i : Instr} (hr : s.rs = .running) (h : s.fetch = .ok i) :
    step s = exec i s := by simp [step, hr, h]

theorem step_of_fetch_error {s : State} {e : BlockError} (hr : s.rs = .running) (h : s.fetch = .error e) :
    step s = .next (s.raise e) := by simp [step, hr, h]

theorem step_of_not_running {s : State} (hr : s.rs ≠ .running) : step s = .fault (.noStep s.rs) := by
  cases h : s.rs <;> simp_all [step]

/-- Everything a step can do: the block is Running, and the fetch errs and the error is taken, or the instruction
fetched is executed. -/
theorem step_cases {s t : State} (h : step s = .next t) :
    s.rs = .running ∧ ((∃ e, s.fetch = .error e ∧ t = s.raise e) ∨ ∃ i, s.fetch = .ok i ∧ exec i s = .next t) := by
  by_cases hr : s.rs = .running
  · refine ⟨hr, ?_⟩
    cases hf : s.fetch with
    | error e =>
      rw [step_of_fetch_error hr hf, Host.Outcome.next.injEq] at h
      exact .inl ⟨e, rfl, h.symm⟩
    | ok i =>
      rw [step_of_fetch_ok hr hf] at h
      exact .inr ⟨i, rfl, h⟩
  · rw [step_of_not_running hr] at h
    cases h

/-- What a step can do to the state, without the reasons: fault entry; the run state Halted, at a Halt word in bounds; or
at an Add or a Mul word with its operand words in bounds, one word in bounds replaced, and the pc advanced. -/
theorem step_effects {s t : State} (h : step s = .next t) :
    s.rs = .running ∧
    ((∃ e, t = s.raise e) ∨
     (s.pc < s.memLen ∧ s.mem.read s.pc = haltCode ∧ t = s.setRunState .halted) ∨
     (∃ r : Int, ∃ a : Nat, a < s.memLen ∧ (1 ≤ s.cfg.wordBits → InWord s.cfg.wordBits r) ∧
       s.pc + 4 ≤ s.memLen ∧ (s.mem.read s.pc = addCode ∨ s.mem.read s.pc = mulCode) ∧
       t = (s.setMem (s.mem.write a r)).advancePc)) := by
  obtain ⟨hr, h⟩ := step_cases h
  refine ⟨hr, ?_⟩
  have arith : ∀ k p1 p2 p3, s.pc + 4 ≤ s.memLen → (s.mem.read s.pc = addCode ∨ s.mem.read s.pc = mulCode) →
      execArith k p1 p2 p3 s = .next t →
      (∃ e, t = s.raise e) ∨
      (∃ r : Int, ∃ a : Nat, a < s.memLen ∧ (1 ≤ s.cfg.wordBits → InWord s.cfg.wordBits r) ∧
        s.pc + 4 ≤ s.memLen ∧ (s.mem.read s.pc = addCode ∨ s.mem.read s.pc = mulCode) ∧
        t = (s.setMem (s.mem.write a r)).advancePc) := by
    intro k p1 p2 p3 hN hop he
    rcases execArith_cases he with ⟨-, h⟩ | ⟨-, -, h⟩ | ⟨-, -, -, -, h⟩ | ⟨r, -, -, -, -, h⟩ | ⟨r, -, -, hr, h3, h⟩
    · exact .inl ⟨_, h⟩
    · exact .inl ⟨_, h⟩
    · exact .inl ⟨_, h⟩
    · exact .inl ⟨_, h⟩
    · have := h3.1
      have := h3.2
      exact .inr ⟨r, p3.toNat, by omega, fun hw => alu_ok_inWord hw hr, hN, hop, h⟩
  rcases h with ⟨e, -, rfl⟩ | ⟨i, hf, he⟩
  · exact .inl ⟨e, rfl⟩
  · rcases s.fetch_cases with ⟨-, h⟩ | ⟨-, -, h⟩ | ⟨hp, h9, h⟩ | ⟨-, -, -, h⟩ | ⟨hN, ha, h⟩ | ⟨hN, hm, h⟩ <;>
      rw [h] at hf <;> cases hf
    · cases he
      exact .inr (.inl ⟨hp, h9, rfl⟩)
    · exact (arith _ _ _ _ hN (.inl ha) he).imp id .inr
    · exact (arith _ _ _ _ hN (.inr hm) he).imp id .inr

/-- A Running block answers a next state. -/
theorem step_next {s : State} (hr : s.rs = .running) : ∃ t, step s = .next t := by
  cases hf : s.fetch with
  | error e => exact ⟨_, step_of_fetch_error hr hf⟩
  | ok i =>
    rw [step_of_fetch_ok hr hf]
    exact exec_next i s

end Sys2Proof.Machine
end

