-- ==== Sys2Proof/Laws/Core.lean ====
section
/-! SUPPORT. Runs of many steps, one step at a time. -/

namespace Sys2Proof.Machine

theorem run_of_next (M : Host.Core) {s t : M.State} (h : M.step s = .next t) (k : Nat) :
    M.run (k + 1) s = M.run k t := by
  rw [Host.Core.run, h]

theorem run_of_fault (M : Host.Core) {s : M.State} {r : M.Fault} (h : M.step s = .fault r) (k : Nat) :
    M.run (k + 1) s = .fault r := by
  rw [Host.Core.run, h]

theorem core_run_zero (s : State) : core.run 0 s = .next s := rfl

/-- A run whose first step answers a next state goes on from it. -/
theorem core_run_of_next {s t : State} (h : step s = .next t) (k : Nat) : core.run (k + 1) s = core.run k t :=
  run_of_next core h k

/-- A run from a block that is not Running ends at once (R82). -/
theorem core_run_of_not_running {s : State} (h : s.rs ≠ .running) (k : Nat) :
    core.run (k + 1) s = .fault (.noStep s.rs) :=
  run_of_fault core (step_of_not_running h) k

end Sys2Proof.Machine
end

