-- ==== Sys2Proof/Laws/Decode.lean ====
section
/-! SUPPORT. Bit patterns of words, and the words of a table number. -/

namespace Sys2Proof

/-- A word in the W-bit range is what its pattern reads as. -/
theorem wordOfPattern_patternOfWord {w : Nat} (hw : 1 ≤ w) {v : Int} (h : InWord w v) :
    wordOfPattern (patternOfWord w v) = v := by
  have h2 : 2 ^ w = 2 * 2 ^ (w - 1) := by
    obtain ⟨k, rfl⟩ : ∃ k, w = k + 1 := ⟨w - 1, by omega⟩
    rw [Nat.add_sub_cancel, pow_succ, Nat.mul_comm]
  simp only [InWord, minWord, maxWord] at h
  rw [wordOfPattern, patternOfWord, BitVec.toInt_ofInt]
  exact Int.bmod_eq_of_le (by omega) (by omega)

/-- A pattern is the pattern of the word it reads as. -/
theorem patternOfWord_wordOfPattern {w : Nat} (u : BitVec w) : patternOfWord w (wordOfPattern u) = u :=
  BitVec.ofInt_toInt

/-- What a pattern reads as is in the W-bit range. -/
theorem wordOfPattern_inWord {w : Nat} (hw : 1 ≤ w) (u : BitVec w) : InWord w (wordOfPattern u) := by
  have h2 : 2 ^ w = 2 * 2 ^ (w - 1) := by
    obtain ⟨k, rfl⟩ : ∃ k, w = k + 1 := ⟨w - 1, by omega⟩
    rw [Nat.add_sub_cancel, pow_succ, Nat.mul_comm]
  have hl := u.le_two_mul_toInt
  have hu := u.two_mul_toInt_lt
  have hc : ((2 ^ w : Nat) : Int) = (2 : Int) ^ w := by norm_cast
  rw [← hc] at hl hu
  simp only [InWord, minWord, maxWord, wordOfPattern]
  omega

/-- A table number is below `2^(W * its words)`. -/
theorem tableNumber_lt (w : Nat) (vs : List Int) : tableNumber w vs < 2 ^ (w * vs.length) := by
  induction vs with
  | nil => simp [tableNumber]
  | cons v vs ih =>
    rw [tableNumber, List.length_cons, Nat.mul_succ, Nat.pow_add]
    have hp := (patternOfWord w v).isLt
    have : 2 ^ w * (tableNumber w vs + 1) ≤ 2 ^ w * 2 ^ (w * vs.length) := Nat.mul_le_mul_left _ ih
    rw [Nat.mul_comm (2 ^ (w * vs.length))]
    rw [Nat.mul_succ] at this
    omega

/-- Word k of a table number is the pattern of its k-th word, and 0 beyond them. -/
theorem tablePattern_tableNumber (w : Nat) (vs : List Int) (k : Nat) :
    tablePattern w (tableNumber w vs) k = ((vs[k]?).map (patternOfWord w)).getD 0 := by
  induction vs generalizing k with
  | nil => simp [tableNumber, tablePattern]
  | cons v vs ih =>
    cases k with
    | zero =>
      simp only [tablePattern, tableNumber, Nat.mul_zero, Nat.shiftRight_zero, List.getElem?_cons_zero,
        Option.map_some, Option.getD_some]
      apply BitVec.eq_of_toNat_eq
      rw [BitVec.toNat_ofNat, Nat.add_mul_mod_self_left, Nat.mod_eq_of_lt (patternOfWord w v).isLt]
    | succ k =>
      rw [List.getElem?_cons_succ, ← ih k]
      simp only [tablePattern, tableNumber]
      congr 1
      rw [Nat.mul_succ, Nat.add_comm (w * k), Nat.shiftRight_add]
      congr 1
      rw [Nat.shiftRight_eq_div_pow, Nat.add_mul_div_left _ _ (Nat.two_pow_pos w),
        Nat.div_eq_of_lt (patternOfWord w v).isLt, Nat.zero_add]

/-- The table number of the words of some bits is the low bits that they fill. -/
theorem tableNumber_map_tablePattern (w n : Nat) (len : Nat) :
    tableNumber w ((List.range len).map fun k => wordOfPattern (tablePattern w n k)) = n % 2 ^ (w * len) := by
  induction len generalizing n with
  | zero => simp [tableNumber, Nat.mod_one]
  | succ len ih =>
    have shift : ∀ k, tablePattern w n (k + 1) = tablePattern w (n / 2 ^ w) k := by
      intro k
      simp only [tablePattern, Nat.shiftRight_eq_div_pow, Nat.mul_succ, Nat.div_div_eq_div_mul, ← Nat.pow_add,
        Nat.add_comm]
    rw [List.range_succ_eq_map, List.map_cons, List.map_map, tableNumber, patternOfWord_wordOfPattern]
    have := ih (n / 2 ^ w)
    simp only [Function.comp_def, Nat.succ_eq_add_one, shift]
    rw [this]
    simp only [tablePattern, Nat.mul_zero, Nat.shiftRight_zero, BitVec.toNat_ofNat]
    rw [Nat.mul_succ, Nat.add_comm (w * len), Nat.pow_add, Nat.mod_mul]

/-- Everything the decoder can read from a table number: the opcode word decides, and the operands are the next words. -/
theorem decodeTable_cases {w nbits n : Nat} {i : Instr} (h : decodeTable w nbits n = some i) :
    (i = .halt ∧ wordOfPattern (tablePattern w (n % 2 ^ nbits) 0) = haltCode) ∨
    (∃ p1 p2 p3, i = .add p1 p2 p3 ∧ tableWords w nbits n = [addCode, p1, p2, p3]) ∨
    (∃ p1 p2 p3, i = .mul p1 p2 p3 ∧ tableWords w nbits n = [mulCode, p1, p2, p3]) := by
  simp only [decodeTable, tableWords, List.map_cons, List.map_nil, decode] at h
  by_cases h1 : wordOfPattern (tablePattern w (n % 2 ^ nbits) 0) = addCode
  · simp only [h1, if_true, Option.some.injEq] at h
    exact .inr (.inl ⟨_, _, _, h.symm, by simp [tableWords, h1]⟩)
  by_cases h2 : wordOfPattern (tablePattern w (n % 2 ^ nbits) 0) = mulCode
  · have h21 : ¬ mulCode = addCode := by decide
    simp only [h2, h21, if_true, if_false, Option.some.injEq] at h
    exact .inr (.inr ⟨_, _, _, h.symm, by simp [tableWords, h2]⟩)
  by_cases h3 : wordOfPattern (tablePattern w (n % 2 ^ nbits) 0) = haltCode
  · have h31 : ¬ haltCode = addCode := by decide
    have h32 : ¬ haltCode = mulCode := by decide
    simp only [h3, h31, h32, if_true, if_false, Option.some.injEq] at h
    exact .inl ⟨h.symm, h3⟩
  · simp [h1, h2, h3] at h

end Sys2Proof
end

