-- ==== Sys2Proof/Laws/Driver.lean ====
section
/-! SUPPORT. What the host's run does with one step, and what it returns from the state the run ended in. -/

namespace Sys2Proof.Machine

@[simp] theorem State.runFor_zero (s : State) : s.runFor 0 = s := rfl

/-- With fuel left, a block that steps goes on from the next state. -/
theorem State.runFor_of_next {s t : State} (h : step s = .next t) (fuel : Nat) : s.runFor (fuel + 1) = t.runFor fuel := by
  rw [State.runFor, h]

/-- A block that is not Running stays as it is, whatever the fuel. -/
theorem State.runFor_of_not_running {s : State} (h : s.rs ≠ .running) (fuel : Nat) : s.runFor fuel = s := by
  cases fuel with
  | zero => rfl
  | succ fuel => rw [State.runFor, step_of_not_running h]

/-- What is returned from a halted block that has a word 0. -/
theorem State.runResult_halted {s : State} (h : s.rs = .halted) (hN : 0 < s.memLen) :
    s.runResult = .result (s.mem.read 0) := by
  have hb : s.inBounds resultAddr := ⟨le_refl _, Int.natCast_pos.2 hN⟩
  simp only [State.runResult, h, transact, doRead]
  rw [if_pos hb]
  rfl

/-- What is returned from a failed block. -/
theorem State.runResult_failed {s : State} (h : s.rs = .failed) :
    s.runResult = .error s.faultCause s.faultAccess s.faultValue s.faultPc := by
  simp only [State.runResult, h]

end Sys2Proof.Machine
end

