-- ==== Sys2Proof/Laws/HostPort.lean ====
section
/-! SUPPORT. Everything a host transaction can do. -/

namespace Sys2Proof.Machine

/-- LOAD: BUSY in Running, TOO_LONG for an image beyond MEM_DEPTH, else a new run (R114, R120). -/
theorem doLoad_cases (image : List Int) (s : State) :
    (s.rs = .running ∧ doLoad image s = (.busy, s)) ∨
    (s.rs ≠ .running ∧ s.cfg.memDepth < image.length ∧ doLoad image s = (.tooLong, s)) ∨
    (s.rs ≠ .running ∧ image.length ≤ s.cfg.memDepth ∧ doLoad image s = (.ok, s.loaded image)) := by
  by_cases hr : s.rs = .running
  · simp [doLoad, hr]
  · by_cases hl : s.cfg.memDepth < image.length
    · simp [doLoad, hr, hl]
    · simp [doLoad, hr, hl, Nat.le_of_not_lt hl]

/-- SEED: BUSY outside Idle; a fault on address 1, or on address 2 after the write to 1; else both writes (R115, R120). -/
theorem doSeed_cases (noun verb : Int) (s : State) :
    (s.rs ≠ .idle ∧ doSeed noun verb s = (.busy, s)) ∨
    (s.rs = .idle ∧ s.memLen ≤ 1 ∧ doSeed noun verb s = (.bounds, s.raise (.boundsError 1 .hostSeed))) ∨
    (s.rs = .idle ∧ s.memLen = 2 ∧
      doSeed noun verb s = (.bounds, (s.setMem (s.mem.write 1 noun)).raise (.boundsError 2 .hostSeed))) ∨
    (s.rs = .idle ∧ 3 ≤ s.memLen ∧
      doSeed noun verb s = (.ok, s.setMem ((s.mem.write 1 noun).write 2 verb))) := by
  by_cases hr : s.rs = .idle
  swap
  · simp [doSeed, hr]
  right
  by_cases h1 : s.memLen ≤ 1
  · have hb : ¬ s.inBounds nounAddr := fun h => by have := h.2; simp only [nounAddr] at this; omega
    exact .inl ⟨hr, h1, by rw [doSeed, if_pos hr, State.memWrite_outOfBounds hb]; rfl⟩
  have hb : s.inBounds nounAddr := ⟨by decide, by simp only [nounAddr]; omega⟩
  by_cases h2 : s.memLen = 2
  · have hb2 : ¬ (s.setMem (s.mem.write 1 noun)).inBounds verbAddr := fun h => by
      have := h.2
      simp only [verbAddr, State.setMem_memLen] at this
      omega
    refine .inr (.inl ⟨hr, h2, ?_⟩)
    rw [doSeed, if_pos hr, State.memWrite_inBounds hb]
    simp only [nounAddr, show (1 : Int).toNat = 1 from rfl, State.memWrite_outOfBounds hb2]
    rfl
  · have hb2 : (s.setMem (s.mem.write 1 noun)).inBounds verbAddr :=
      ⟨by decide, by simp only [verbAddr, State.setMem_memLen]; omega⟩
    refine .inr (.inr ⟨hr, by omega, ?_⟩)
    rw [doSeed, if_pos hr, State.memWrite_inBounds hb]
    simp only [nounAddr, show (1 : Int).toNat = 1 from rfl, State.memWrite_inBounds hb2]
    rfl

/-- READ and STATUS leave the state as it is (R118, R119). -/
@[simp] theorem doRead_state (addr : Int) (s : State) : (doRead addr s).2 = s := by
  rw [doRead]
  split
  · rfl
  · split <;> rfl

@[simp] theorem doStatus_state (n : Int) (s : State) : (doStatus n s).2 = s := by
  rw [doStatus]
  split <;> rfl

/-- Everything a transaction can do to the state: nothing, reset, a new run, a seeding that faults or completes, or
the start of the run. -/
theorem transact_state_cases (tr : Transaction) (s : State) :
    (transact tr s).2 = s ∨
    (tr = .reset ∧ (transact tr s).2 = State.resetWith s.cfg) ∨
    (∃ image, tr = .load image ∧ s.rs ≠ .running ∧ image.length ≤ s.cfg.memDepth ∧
      (transact tr s).2 = s.loaded image) ∨
    (∃ noun verb, tr = .seed noun verb ∧ s.rs = .idle ∧
      ((s.memLen ≤ 1 ∧ (transact tr s).2 = s.raise (.boundsError 1 .hostSeed)) ∨
       (s.memLen = 2 ∧
        (transact tr s).2 = (s.setMem (s.mem.write 1 noun)).raise (.boundsError 2 .hostSeed)) ∨
       (3 ≤ s.memLen ∧ (transact tr s).2 = s.setMem ((s.mem.write 1 noun).write 2 verb)))) ∨
    (tr = .start ∧ s.rs = .idle ∧ (transact tr s).2 = s.setRunState .running) := by
  cases tr with
  | reset => exact .inr (.inl ⟨rfl, rfl⟩)
  | load image =>
    rcases doLoad_cases image s with ⟨-, h⟩ | ⟨-, -, h⟩ | ⟨hr, hl, h⟩
    · exact .inl (by simp [transact, h])
    · exact .inl (by simp [transact, h])
    · exact .inr (.inr (.inl ⟨image, rfl, hr, hl, by simp [transact, h]⟩))
  | seed noun verb =>
    rcases doSeed_cases noun verb s with ⟨-, h⟩ | ⟨hr, hl, h⟩ | ⟨hr, hl, h⟩ | ⟨hr, hl, h⟩
    · exact .inl (by simp [transact, h])
    · exact .inr (.inr (.inr (.inl ⟨noun, verb, rfl, hr, .inl ⟨hl, by simp [transact, h]⟩⟩)))
    · exact .inr (.inr (.inr (.inl ⟨noun, verb, rfl, hr, .inr (.inl ⟨hl, by simp [transact, h]⟩)⟩)))
    · exact .inr (.inr (.inr (.inl ⟨noun, verb, rfl, hr, .inr (.inr ⟨hl, by simp [transact, h]⟩)⟩)))
  | start =>
    by_cases hr : s.rs = .idle
    · exact .inr (.inr (.inr (.inr ⟨rfl, hr, by simp [transact, doStart, hr]⟩)))
    · exact .inl (by simp [transact, doStart, hr])
  | read addr => exact .inl (by simp [transact])
  | status n => exact .inl (by simp [transact])

end Sys2Proof.Machine
end

