-- ==== Sys2Proof/Laws/PerInstr.lean ====
section
/-! SUPPORT. Families of statements made per instruction. -/

namespace Sys2Proof.Laws.EncodeShape

/-- The encoding is an opcode word and exactly as many words after it as that opcode takes (30_encoding.md R59). -/
def Statement (i : Instr) : Prop :=
  ∃ op ps, encode i = op :: ps ∧ operandCount op = some ps.length

theorem add (p1 p2 p3 : Int) : Statement (.add p1 p2 p3) := ⟨addCode, [p1, p2, p3], rfl, rfl⟩

theorem mul (p1 p2 p3 : Int) : Statement (.mul p1 p2 p3) := ⟨mulCode, [p1, p2, p3], rfl, rfl⟩

theorem halt : Statement .halt := ⟨haltCode, [], rfl, rfl⟩

end Sys2Proof.Laws.EncodeShape
end

