-- ==== Sys2Proof/Laws/Safety.lean ====
section
/-! SUPPORT. How the parts of the invariant follow the named operations. -/

namespace Sys2Proof.Machine

/-- The memory after reset is in canonical form. -/
theorem reset_mem_wf : State.reset.mem.wf := Memory.wf_nil

/-- Every address of a good memory reads as a word. -/
theorem State.MemoryOk.read_inWord {s : State} (h : s.MemoryOk) (a : Nat) : InWord s.cfg.wordBits (s.mem.read a) := by
  rcases s.mem.read_cases a with h0 | hm
  · rw [h0]; exact inWord_zero _
  · exact (h.2.1 _ hm).2

/-- Writing a word in bounds keeps a memory good. -/
theorem State.MemoryOk.setMem_write {s : State} (h : s.MemoryOk) {a : Nat} {v : Int} (ha : a < s.memLen)
    (hv : InWord s.cfg.wordBits v) : (s.setMem (s.mem.write a v)).MemoryOk := by
  obtain ⟨hwf, hcells, hlen⟩ := h
  refine ⟨Memory.wf_write _ hwf _ _, fun c hc => ?_, hlen⟩
  rcases Memory.mem_write _ _ _ hc with hc | ⟨rfl, -⟩
  · exact hcells c hc
  · exact ⟨ha, hv⟩

/-- A memory length fits a word with room for a pc (00_scope.md R7, 10_state.md R17). -/
theorem State.memLen_add_three_le {s : State} (hc : s.cfg.Legal) (h : s.MemoryOk) :
    ((s.memLen + 3 : Nat) : Int) ≤ maxWord s.cfg.wordBits := by
  have h1 := hc.2.2
  have h2 := h.2.2
  simp only [maxWord]
  omega

/-- A natural number up to the greatest word is a word. -/
theorem inWord_natCast {w a : Nat} (h : (a : Int) ≤ maxWord w) : InWord w (a : Int) := by
  refine ⟨?_, h⟩
  have : (0 : Int) ≤ ((2 ^ (w - 1) : Nat) : Int) := Int.natCast_nonneg _
  simp only [minWord]
  omega

end Sys2Proof.Machine
end

