-- ==== Sys2Proof/Tests/Slice0.lean ====
section
/-! SUPPORT. Tests against the spec's own words and vectors (95_test_vectors.md, whose ids stand in the comments), the smoke
test of well-formedness, and a witness for the hypotheses of every statement that has some. -/

namespace Sys2Proof.Tests

open Sys2Proof.Machine

/-! ### Small blocks -/

/-- A Running block of 64-bit words whose memory is the list, at a pc. -/
def blockAt (mode : OverflowMode) (ws : List Int) (pc : Nat) : State :=
  { State.resetWith { wordBits := 64, memDepth := 16, overflowMode := mode } with
    memLen := ws.length, mem := Memory.ofWords 0 ws, pc := pc, rs := .running }

/-- The same block in another run state. -/
def blockIn (r : RunState) (ws : List Int) : State := (blockAt .wrap ws 0).setRunState r

/-- A word of memory and the pc after a step. -/
def wordAndPc (a : Nat) : Host.Outcome State Fault Refusal → Option (RunState × Int × Nat)
  | .next t => some (t.rs, t.mem.read a, t.pc)
  | .fault _ => none
  | .refused _ => none

/-- `Failed(CAUSE, ACCESS, VALUE, FAULT_PC)` of 95_test_vectors.md, with the run state it stands for. -/
structure Record where
  rs : RunState
  cause : FaultCause
  access : Option Access
  value : Int
  faultPc : Nat
  deriving DecidableEq, Repr

/-- The fault record a step that fails leaves. -/
def failed (cause : FaultCause) (access : Option Access) (value : Int) (faultPc : Nat) : Option Record :=
  some { rs := .failed, cause := cause, access := access, value := value, faultPc := faultPc }

/-- The run state and the fault record after a step. -/
def record : Host.Outcome State Fault Refusal → Option Record
  | .next t => some { rs := t.rs, cause := t.faultCause, access := t.faultAccess, value := t.faultValue, faultPc := t.faultPc }
  | .fault _ => none
  | .refused _ => none

/-- MAX and MIN of 95_test_vectors.md. -/
def maxW : Int := 9223372036854775807
def minW : Int := -9223372036854775808

/-! ### Well-formedness: an ill-formed term for each check -/

theorem test_wf_add_p1 : (Instr.add 9223372036854775808 0 0).wellFormed 64 = false := by decide
theorem test_wf_add_p2 : (Instr.add 0 (-9223372036854775809) 0).wellFormed 64 = false := by decide
theorem test_wf_add_p3 : (Instr.add 0 0 9223372036854775808).wellFormed 64 = false := by decide
theorem test_wf_mul_p1 : (Instr.mul 128 0 0).wellFormed 8 = false := by decide
theorem test_wf_mul_p2 : (Instr.mul 0 (-129) 0).wellFormed 8 = false := by decide
theorem test_wf_mul_p3 : (Instr.mul 0 0 128).wellFormed 8 = false := by decide
theorem test_wf_extremes : (Instr.add 9223372036854775807 (-9223372036854775808) 0).wellFormed 64 = true := by decide

/-! ### Decoding: words written out from 30_encoding.md R55, R56, R57, R62 -/

-- format A4: op 1, then p1 = 9, p2 = 10, p3 = 3 (the first line of program P1)
theorem test_decode_add :
    decodeTableWord 256 0x0000000000000003000000000000000A00000000000000090000000000000001 = some (.add 9 10 3) := by decide
-- op 2 = 63 zero bits but bit 1 (R62), p1 = -1 (all 64 bits set), p2 = 11, p3 = 0
theorem test_decode_mul :
    decodeTableWord 256 0x0000000000000000000000000000000BFFFFFFFFFFFFFFFF0000000000000002 = some (.mul (-1) 11 0) := by decide
-- op 99 = binary 1100011 (R62); the words after it are no part of it (R57)
theorem test_decode_halt : decodeTableWord 64 0b1100011 = some .halt := by decide
theorem test_decode_halt_rest : decode [99, 1, 2] = .ok (.halt, [1, 2]) := by rfl
-- R60: no mode digits, no neighbours, nothing negative
theorem test_decode_illegal : [0, 3, 98, 100, 101, 1001, -1].map (fun v => decode [v, 0, 0, 0]) =
    [0, 3, 98, 100, 101, 1001, -1].map fun v => .error (.illegalOpcode v) := by rfl
-- the whole word is the opcode (R54): bit 63 set beside 1 is no Add
theorem test_decode_whole_word : decodeTableWord 64 0x8000000000000001 = none := by decide
-- R65: `add P1, P2, P3` emits 1, P1, P2, P3
theorem test_encode : encode (.add 9 10 3) = [1, 9, 10, 3] ∧ encode (.mul 3 11 0) = [2, 3, 11, 0] ∧ encode .halt = [99] := by
  decide

-- R65: the words of each line, and a label for the address of the next emitted word, 5
theorem test_assemble : assemble 64 [.add (.number 4) (.number 5) (.label "five"), .halt, .label "five", .word (.number 5)] =
    some [1, 4, 5, 5, 99, 5] := by decide

/-! ### One step each -/

-- E6: every other word unchanged
theorem test_add_stores_sum :
    wordAndPc 2 (step (blockAt .wrap [1, 5, 6, 2, 99, 20, 22] 0)) = some (.running, 42, 4) := by decide
-- A7
theorem test_add_wraps : wordAndPc 0 (step (blockAt .wrap [1, 5, 6, 0, 99, maxW, 1] 0)) = some (.running, minW, 4) := by decide
-- M3b
theorem test_mul_signs : wordAndPc 0 (step (blockAt .wrap [2, 5, 6, 0, 99, 3, -4] 0)) = some (.running, -12, 4) := by decide
-- M7
theorem test_mul_wraps : wordAndPc 0 (step (blockAt .wrap [2, 5, 5, 0, 99, maxW] 0)) = some (.running, 1, 4) := by decide
-- H1
theorem test_halt_last_word : wordAndPc 0 (step (blockAt .wrap [99] 0)) = some (.halted, 99, 0) := by decide
-- H2
theorem test_halt_keeps_pc : wordAndPc 0 (step (blockAt .wrap [2, 0, 0, 0, 99] 4)) = some (.halted, 2, 4) := by decide
-- T11: every status register reads 0 after reset
theorem test_status_after_reset :
    [0, 1, 2, 3, 4, 5, 6].map (fun n => (transact (.status n) State.reset).1) = List.replicate 7 (.okWord 0) := by decide
-- T3: the first write of a partial SEED stays
theorem test_partial_seed :
    let r := transact (.seed 5 6) (blockIn .idle [99, 0])
    r.1 = .bounds ∧ r.2.words = [99, 5] ∧ record (.next r.2) = failed .bounds (some .hostSeed) 2 0 := by decide
-- the first instruction after reset, placed where the step fetches: Add with operand words 0
theorem test_placed_add_runs : wordAndPc 0 (step (State.reset.withFetchWord 64 1)) = some (.running, 2, 4) := by decide

/-! ### Witnesses: states and operands that meet the hypotheses of the statements -/

-- DecodeEncodeRoundTrip, at the smallest width and both extremes of a word
theorem witness_DecodeEncodeRoundTrip : 8 ≤ 8 ∧ (Instr.add (-128) 127 0).wellFormed 8 = true := by decide

theorem witness_DecodedBitsAreTheEncoding : 8 ≤ 8 ∧ decodeTable 8 32 0x007F8001 = some (.add (-128) 127 0) := by decide

-- operands that have values, a label among them; the lines before a label, and after it; each name declared once, the last
-- word the greatest of 64 bits, which is none of 8 bits
theorem witness_AssemblyLinesEmitTheirWords :
    let before := [AsmLine.add (.number (-1)) (.label "five") (.number 5), .halt]
    let lines := before ++ .label "five" :: [.word (.number maxW)]
    (AsmOperand.number (-1)).value (labels 0 lines) = some (-1) ∧ (AsmOperand.label "five").value (labels 0 lines) = some 5 ∧
    (∀ name, lines.count (.label name) ≤ 1) ∧
    emitAll (labels 0 lines) before = some [1, -1, 5, 5, 99] ∧
    emitAll (labels 0 lines) [.word (.number maxW)] = some [maxW] ∧
    emitAll (labels 0 lines) lines = some [1, -1, 5, 5, 99, maxW] ∧
    (∀ x ∈ [1, -1, 5, 5, 99, maxW], InWord 64 x) ∧ ∃ x ∈ [1, -1, 5, 5, 99, maxW], ¬ InWord 8 x :=
  ⟨rfl, rfl, fun name => by by_cases h : name = "five" <;> simp [h, eq_comm], rfl, rfl, rfl, by decide,
    maxW, by simp, by decide⟩

-- "a" declared at 1 and again at 2; a program that uses a name it does not declare
theorem witness_LabelsOutsideTheRule :
    (let lines := [AsmLine.halt] ++ .label "a" :: [.halt, .label "a", .word (.label "a")];
      AsmLine.label "a" ∉ [AsmLine.halt] ∧ emitAll (labels 0 lines) [.halt] = some [99] ∧
      assemble 64 lines = some [99, 99, 1]) ∧
    (let lines := [AsmLine.add (.number 0) (.label "b") (.number 0), .word (.label "b"), .halt];
      AsmLine.label "b" ∉ lines ∧ (AsmOperand.label "b").value (labels 0 lines) = none ∧
      emit (labels 0 lines) (.word (.label "b")) = none ∧ assemble 64 lines = none) := by decide

-- D6, and D1: an illegal opcode with too few words after it, and with none
theorem witness_IllegalOpcodeFails :
    (let s := blockAt .wrap [4, 0, 0] 0;
      s.rs = .running ∧ s.pc < s.memLen ∧ s.mem.read s.pc ≠ 1 ∧ s.mem.read s.pc ≠ 2 ∧ s.mem.read s.pc ≠ 99 ∧
      record (step s) = failed .decode none 4 0) ∧
    record (step (blockAt .wrap [0] 0)) = failed .decode none 0 0 := by decide

-- inside at 0 and N - 1, outside at -1 and N
theorem witness_MemoryPrimitivesCheckBounds :
    let s := blockAt .wrap [7, 0, 9] 0
    s.mem.wf ∧ ((0 : Int) ≤ 0 ∧ (0 : Int) < s.memLen) ∧ ((0 : Int) ≤ 2 ∧ (2 : Int) < s.memLen) ∧
    (-1 : Int) < 0 ∧ (s.memLen : Int) ≤ 3 := by decide

-- at the last address
theorem witness_ReadAfterWrite :
    let s := blockAt .wrap [7, 0, 9] 0
    s.mem.wf ∧ (0 : Int) ≤ 2 ∧ (2 : Int) < s.memLen := by decide

/-- A block at pc 0 meets the hypotheses of NextFetchSeesTheWrite, and the ALU's result is r. -/
abbrev StoresAtNextOpcode (s : State) (k : AluKind) (r : Int) : Prop :=
  s.rs = .running ∧ s.mem.wf ∧ s.pc + 4 < s.memLen ∧ s.mem.read s.pc = k.opcode ∧
  s.inBounds (s.mem.read (s.pc + 1)) ∧ s.inBounds (s.mem.read (s.pc + 2)) ∧ s.mem.read (s.pc + 3) = (s.pc : Int) + 4 ∧
  alu s.cfg k (s.mem.read (s.mem.read (s.pc + 1)).toNat) (s.mem.read (s.mem.read (s.pc + 2)).toNat) = .ok r

-- a Mul into an Add (r = 1); program P2, an Add into a Mul (r = 2), whose next step stores 25 and not 10
theorem witness_NextFetchSeesTheWrite :
    (let s := blockAt .wrap [2, 9, 9, 4, 2, 11, 11, 0, 99, 1, 0, 5] 0; StoresAtNextOpcode s .mul 1 ∧ s.pc + 8 ≤ s.memLen) ∧
    (let s := blockAt .wrap [1, 9, 10, 4, 1, 11, 11, 0, 99, 1, 1, 5] 0;
      StoresAtNextOpcode s .add 2 ∧ s.pc + 8 ≤ s.memLen ∧
      (match step s with | .next t => wordAndPc 0 (step t) | .fault _ => none | .refused _ => none) =
        some (.running, 25, 8)) :=
  ⟨⟨⟨by decide, by decide, by decide, by decide, by decide, by decide, by decide, rfl⟩, by decide⟩,
    ⟨by decide, by decide, by decide, by decide, by decide, by decide, by decide, rfl⟩, by decide, by decide⟩

-- the opcode 2 at N - 1, with no operand words after it; the sum 99; the product 6, under CHECKED
theorem witness_NextFetchSeesTheWrite_stops :
    (let s := blockAt .wrap [1, 0, 0, 4, 0] 0; StoresAtNextOpcode s .add 2 ∧ s.memLen < s.pc + 8) ∧
    StoresAtNextOpcode (blockAt .wrap [1, 8, 9, 4, 1, 0, 0, 0, 49, 50] 0) .add 99 ∧
    StoresAtNextOpcode (blockAt .checked [2, 5, 6, 4, 1, 2, 3] 0) .mul 6 :=
  ⟨⟨⟨by decide, by decide, by decide, by decide, by decide, by decide, by decide, rfl⟩, by decide⟩,
    ⟨by decide, by decide, by decide, by decide, by decide, by decide, by decide, rfl⟩,
    ⟨by decide, by decide, by decide, by decide, by decide, by decide, by decide, rfl⟩⟩

theorem witness_StepRunsDecodedInstruction :
    let s := blockAt .wrap [1, 0, 0, 0] 0
    s.rs = .running ∧ ∀ k, k < (encode (.add 0 0 0)).length →
      s.pc + k < s.memLen ∧ (encode (.add 0 0 0))[k]? = some (s.mem.read (s.pc + k)) := by decide

theorem witness_PlacedInstructionRuns :
    State.reset.mem.wf ∧ decodeTable State.reset.cfg.wordBits 64 99 = some .halt := by decide

theorem witness_NoStepUnlessRunning :
    State.reset.rs = .idle ∧ (blockIn .halted [99]).rs = .halted ∧ (blockIn .failed [7]).rs = .failed := by decide

theorem witness_RunningBlockAlwaysSteps : (blockAt .wrap [1, 0, 0, 0] 0).rs = .running := by decide

-- B1, at pc = N, and B11, at N = 0
theorem witness_OpcodeFetchBeyondEndFails :
    (let s := blockAt .wrap [2, 0, 0, 0] 4;
      s.rs = .running ∧ s.memLen ≤ s.pc ∧ record (step s) = failed .bounds (some .fetchOpcode) 4 4) ∧
    (let s := blockAt .wrap [] 0;
      s.rs = .running ∧ s.memLen ≤ s.pc ∧ record (step s) = failed .bounds (some .fetchOpcode) 0 0) := by decide

-- k = 1 (B3), 2, 3 (B2)
theorem witness_OperandFetchBeyondEndFails :
    (let s := blockAt .wrap [2] 0;
      s.rs = .running ∧ s.mem.read s.pc = 2 ∧ s.memLen ≤ s.pc + 1 ∧ (∀ j, j < 1 → s.pc + j < s.memLen) ∧
      record (step s) = failed .bounds (some .fetchOperandAddr) 1 0) ∧
    (let s := blockAt .wrap [2, 0] 0;
      s.rs = .running ∧ s.mem.read s.pc = 2 ∧ s.memLen ≤ s.pc + 2 ∧ ∀ j, j < 2 → s.pc + j < s.memLen) ∧
    (let s := blockAt .wrap [1, 0, 0] 0;
      s.rs = .running ∧ s.mem.read s.pc = 1 ∧ s.memLen ≤ s.pc + 3 ∧ (∀ j, j < 3 → s.pc + j < s.memLen) ∧
      record (step s) = failed .bounds (some .fetchOperandAddr) 3 0) := by decide

-- two different states that agree on the configuration, N, M and pc
theorem witness_StepDependsOnMemoryAndPcAlone :
    let s := blockAt .wrap [99] 0
    let s' := { s with faultValue := 5 }
    s.rs = .running ∧ s'.rs = .running ∧ s'.cfg = s.cfg ∧ s'.memLen = s.memLen ∧ s'.mem = s.mem ∧ s'.pc = s.pc ∧ s' ≠ s := by
  decide

-- a step of each kind that completes, one that halts and one that fails
theorem witness_OnlyThreeThingsWritePc :
    (∃ t, step (blockAt .wrap [1, 0, 0, 0] 0) = .next t ∧ t.rs = .running) ∧
    (∃ t, step (blockAt .wrap [2, 0, 0, 0] 0) = .next t ∧ t.rs = .running) ∧
    (∃ t, step (blockAt .wrap [99] 0) = .next t ∧ t.rs ≠ .running) ∧
    ∃ t, step (blockAt .wrap [7] 0) = .next t ∧ t.rs = .failed :=
  ⟨⟨_, rfl, by decide⟩, ⟨_, rfl, by decide⟩, ⟨_, rfl, by decide⟩, ⟨_, rfl, by decide⟩⟩

theorem witness_ConfigurationIsConstant : ∃ t, step (blockAt .checked [2, 0, 0, 0] 0) = .next t := ⟨_, rfl⟩

theorem witness_FaultRecordWrittenByFaultEntryOnly :
    ∃ t, step (blockAt .wrap [99] 0) = .next t ∧ t.rs ≠ .failed := ⟨_, rfl, by decide⟩

-- each kind, completing and failing
theorem witness_AddMulFrame :
    let s := blockAt .wrap [1, 0, 0, 0] 0
    (∃ t, exec (.add 0 0 3) s = .next t ∧ t.rs = .running) ∧ (∃ t, exec (.mul 0 0 3) s = .next t ∧ t.rs = .running) ∧
    (∃ t, exec (.add 0 0 4) s = .next t ∧ t.rs = .failed) ∧ ∃ t, exec (.mul (-1) 0 0) s = .next t ∧ t.rs = .failed :=
  ⟨⟨_, rfl, by decide⟩, ⟨_, rfl, by decide⟩, ⟨_, rfl, by decide⟩, ⟨_, rfl, by decide⟩⟩

-- a step; a LOAD that responds OK; an address at N
theorem witness_MemoryLengthIsFixedForTheRun :
    (∃ t, step (blockAt .wrap [1, 0, 0, 0] 0) = .next t) ∧
    (∃ t, transact (.load [1, 2]) State.reset = (.ok, t)) ∧ (State.reset.memLen : Int) ≤ 0 :=
  ⟨⟨_, rfl⟩, ⟨_, rfl⟩, by decide⟩

-- P4 meets the bound exactly; the empty memory ends in one step
theorem witness_EveryStartedRunEnds :
    ((blockAt .wrap [1, 0, 0, 0] 0).rs = .running ∧ (blockAt .wrap [1, 0, 0, 0] 0).pc = 0) ∧
    (blockAt .wrap [] 0).rs = .running ∧ (blockAt .wrap [] 0).pc = 0 := by decide

-- each clause of the rule of Add: the three fetches, p1 at N (B4) and negative (B5), p2 (B6), overflow (A7c), p3 (B7), completion (A4)
theorem witness_AddFollowsItsRule :
    record (step (blockAt .wrap [1] 0)) = failed .bounds (some .fetchOperandAddr) 1 0 ∧
    record (step (blockAt .wrap [1, 0] 0)) = failed .bounds (some .fetchOperandAddr) 2 0 ∧
    record (step (blockAt .wrap [1, 0, 0] 0)) = failed .bounds (some .fetchOperandAddr) 3 0 ∧
    record (step (blockAt .wrap [1, 5, 0, 0, 99] 0)) = failed .bounds (some .readOperandA) 5 0 ∧
    record (step (blockAt .wrap [1, -1, 0, 0, 99] 0)) = failed .bounds (some .readOperandA) (-1) 0 ∧
    record (step (blockAt .wrap [1, 0, 9, 0, 99] 0)) = failed .bounds (some .readOperandB) 9 0 ∧
    record (step (blockAt .checked [1, 5, 6, 0, 99, maxW, 1] 0)) = failed .overflow none 1 0 ∧
    record (step (blockAt .wrap [1, 0, 0, 7, 99] 0)) = failed .bounds (some .writeResult) 7 0 ∧
    wordAndPc 5 (step (blockAt .wrap [1, 5, 6, 5, 99, 10, 3] 0)) = some (.running, 13, 4) ∧
    (let s := blockAt .wrap [1, 5, 6, 5, 99, 10, 3] 0;
      s.rs = .running ∧ s.pc < s.memLen ∧ s.mem.read s.pc = 1) := by decide

-- the clauses of the rule of Mul: B3, p1, p2, overflow before the write (B10 under CHECKED and under WRAP), B8, completion (M1)
theorem witness_MulFollowsItsRule :
    record (step (blockAt .wrap [2] 0)) = failed .bounds (some .fetchOperandAddr) 1 0 ∧
    record (step (blockAt .wrap [2, 0] 0)) = failed .bounds (some .fetchOperandAddr) 2 0 ∧
    record (step (blockAt .wrap [2, 0, 0] 0)) = failed .bounds (some .fetchOperandAddr) 3 0 ∧
    record (step (blockAt .wrap [2, maxW, 0, 0, 99] 0)) = failed .bounds (some .readOperandA) maxW 0 ∧
    record (step (blockAt .wrap [2, 0, 5, 0, 99] 0)) = failed .bounds (some .readOperandB) 5 0 ∧
    record (step (blockAt .checked [2, 5, 5, 9, 99, 4611686018427387904] 0)) = failed .overflow none 2 0 ∧
    record (step (blockAt .wrap [2, 5, 5, 9, 99, 4611686018427387904] 0)) =
      failed .bounds (some .writeResult) 9 0 ∧
    record (step (blockAt .wrap [2, 0, 0, -5, 99] 0)) = failed .bounds (some .writeResult) (-5) 0 ∧
    wordAndPc 0 (step (blockAt .wrap [2, 5, 6, 0, 99, 6, 7] 0)) = some (.running, 42, 4) ∧
    (let s := blockAt .wrap [2, 5, 6, 0, 99, 6, 7] 0;
      s.rs = .running ∧ s.pc < s.memLen ∧ s.mem.read s.pc = 2) := by decide

-- an overflowing sum under WRAP, and one that fits under CHECKED
theorem witness_AddCompletes :
    (let s := blockAt .wrap [1, 5, 6, 0, 99, maxW, 1] 0;
      s.cfg.Legal ∧ s.mem.wf ∧ s.inBounds 5 ∧ s.inBounds 6 ∧ s.inBounds 0 ∧ s.cfg.overflowMode = .wrap) ∧
    (let s := blockAt .checked [1, 5, 6, 0, 99, -7, 3] 0;
      s.cfg.Legal ∧ s.mem.wf ∧ s.inBounds 5 ∧ s.inBounds 6 ∧ s.inBounds 0 ∧ InWord s.cfg.wordBits (-7 + 3)) := by decide

theorem witness_MulCompletes :
    (let s := blockAt .wrap [2, 5, 6, 0, 99, minW, -1] 0;
      s.cfg.Legal ∧ s.mem.wf ∧ s.inBounds 5 ∧ s.inBounds 6 ∧ s.inBounds 0 ∧ s.cfg.overflowMode = .wrap) ∧
    (let s := blockAt .checked [2, 5, 6, 0, 99, -3, 4] 0;
      s.cfg.Legal ∧ s.mem.wf ∧ s.inBounds 5 ∧ s.inBounds 6 ∧ s.inBounds 0 ∧ InWord s.cfg.wordBits (-3 * 4)) := by decide

-- A10c out of range, and the greatest result that fits; M4c
theorem witness_CheckedOverflowFaults :
    (let s := blockAt .checked [1, 5, 6, 0, 99, minW, -1] 0;
      s.cfg.overflowMode = .checked ∧ s.mem.wf ∧ s.inBounds 5 ∧ s.inBounds 6 ∧
      ¬ InWord s.cfg.wordBits (s.mem.read 5 + s.mem.read 6)) ∧
    (let s := blockAt .checked [1, 5, 6, 0, 99, maxW, 0] 0;
      InWord s.cfg.wordBits (s.mem.read 5 + s.mem.read 6) ∧ s.inBounds 0) ∧
    (let s := blockAt .checked [2, 5, 6, 0, 99, minW, -1] 0;
      ¬ InWord s.cfg.wordBits (s.mem.read 5 * s.mem.read 6) ∧
      record (exec (.mul 5 6 0) s) = failed .overflow none 2 0) := by decide

-- A9c
theorem witness_OverflowErrorOnlyUnderChecked :
    ∃ t, step (blockAt .checked [1, 5, 5, 0, 99, minW] 0) = .next t ∧ t.rs = .failed ∧ t.faultCause = .overflow :=
  ⟨_, rfl, by decide⟩

theorem witness_WrapIsTheOneWordCongruent : 8 ≤ 64 ∧ wrapWord 64 9223372036854775808 = minW := by decide

-- MAX + 1, MIN + (-1): overflow of either sign
theorem witness_WrappedAddLaws :
    let c := (blockAt .wrap [] 0).cfg
    c.Legal ∧ c.overflowMode = .wrap ∧ InWord c.wordBits maxW ∧ InWord c.wordBits 1 ∧ InWord c.wordBits minW ∧
    wrapWord c.wordBits (maxW + 1) = minW ∧ wrapWord c.wordBits (minW + -1) = maxW := by decide

theorem witness_WrappedMulLaws :
    let c := (blockAt .wrap [] 0).cfg
    c.Legal ∧ c.overflowMode = .wrap ∧ InWord c.wordBits minW ∧ InWord c.wordBits 2 ∧
    wrapWord c.wordBits (minW * -1) = minW ∧ wrapWord c.wordBits (maxW * 2) = -2 := by decide

-- the Halt is the last word (N = 1), and stands at N - 1
theorem witness_HaltFollowsItsRule :
    (let s := blockAt .wrap [99] 0; s.rs = .running ∧ s.pc < s.memLen ∧ s.mem.read s.pc = 99) ∧
    (let s := blockAt .wrap [2, 0, 0, 0, 99] 4; s.rs = .running ∧ s.pc < s.memLen ∧ s.mem.read s.pc = 99) := by decide

theorem witness_ResultIsWordZeroAfterHalt :
    ∃ t, step (blockAt .wrap [2, 0, 0, 0, 99] 4) = .next t ∧ t.rs = .halted := ⟨_, rfl, by decide⟩

theorem witness_FailedStepLeavesMemoryAndPc :
    ∃ t, step (blockAt .wrap [1, 0, 0, 7, 99] 0) = .next t ∧ t.rs = .failed := ⟨_, rfl, by decide⟩

-- B9 (p1 reported although p2 and p3 are out as well), p2, overflow before p3, p3 alone, for both kinds
theorem witness_FirstFaultIsReported :
    (let s := blockAt .wrap [1, 7, 8, 9, 99] 0;
      ¬ s.inBounds 7 ∧ record (step s) = failed .bounds (some .readOperandA) 7 0) ∧
    (let s := blockAt .wrap [1, 0, 9, 9, 99] 0;
      s.inBounds 0 ∧ ¬ s.inBounds 9 ∧ record (step s) = failed .bounds (some .readOperandB) 9 0) ∧
    (let s := blockAt .checked [2, 5, 5, 9, 99, maxW] 0;
      s.inBounds 5 ∧ s.cfg.overflowMode = .checked ∧ ¬ InWord s.cfg.wordBits (s.mem.read 5 * s.mem.read 5)) ∧
    (let s := blockAt .checked [1, 0, 0, 5, 99] 0;
      s.inBounds 0 ∧ InWord s.cfg.wordBits (s.mem.read 0 + s.mem.read 0) ∧ ¬ s.inBounds 5) := by decide

-- an image of exactly MEM_DEPTH words, and one of one more (T7's case)
theorem witness_LoadBeginsANewRun :
    (blockIn .idle []).rs = .idle ∧ (blockIn .halted [99]).rs = .halted ∧ (blockIn .failed [7]).rs = .failed ∧
    (List.replicate 16 (0 : Int)).length ≤ (blockIn .idle []).cfg.memDepth ∧
    (blockIn .idle []).cfg.memDepth < (List.replicate 17 (0 : Int)).length := by decide

-- N = 0, 1, 2, 3
theorem witness_SeedWritesNounAndVerb :
    ([[], [99], [99, 0], [99, 0, 0]].map fun ws => (blockIn .idle ws).memLen) = [0, 1, 2, 3] ∧
    ∀ ws ∈ [[], [99], [99, 0], [99, 0, 0]], (blockIn .idle ws).rs = .idle ∧ (blockIn .idle ws).mem.wf := by decide

-- T5: READ at -1, 0, N - 1 and N
theorem witness_ReadGivesTheWord :
    let s := blockIn .idle [1, 0, 0, 0, 99]
    s.rs = .idle ∧ ((0 : Int) ≤ 0 ∧ (0 : Int) < s.memLen) ∧ ((0 : Int) ≤ 4 ∧ (4 : Int) < s.memLen) ∧ (-1 : Int) < 0 ∧
    (s.memLen : Int) ≤ 5 ∧ transact (.read 4) s = (.okWord 99, s) ∧ transact (.read 5) s = (.bounds, s) := by decide

-- T6, and a negative number
theorem witness_StatusGivesTheRegisters :
    (transact (.status 7) State.reset).1 = .bounds ∧ (transact (.status (-1)) State.reset).1 = .bounds := by decide

-- T4, T10
theorem witness_BusyChangesNothing :
    (blockAt .wrap [99] 0).rs = .running ∧ (blockIn .halted [99]).rs ≠ .idle := by decide

theorem witness_HaltedAndFailedAreTerminal :
    (blockIn .halted [99]).rs = .halted ∧ (blockIn .failed [7]).rs = .failed ∧
    (transact .reset (blockIn .halted [99])).2 ≠ blockIn .halted [99] := by decide

/-- An Idle block in a state it can be in. -/
theorem idle_block_inv : (blockIn .idle [1, 0, 0, 0, 99]).Inv :=
  { legal := by decide
    memory := by decide
    pc := by decide
    record := by simp [State.FaultRecordOk, blockIn, blockAt]
    halt := by decide }

theorem witness_StartRunsFromAddressZero :
    (blockIn .idle [1, 0, 0, 0, 99]).Inv ∧ (blockIn .idle [1, 0, 0, 0, 99]).rs = .idle := ⟨idle_block_inv, by decide⟩

theorem witness_ResetHasTheInvariant : Config.reference.Legal := by decide

theorem witness_StepKeepsTheInvariant :
    (blockAt .wrap [1, 0, 0, 0, 99] 0).Inv ∧ ∃ t, step (blockAt .wrap [1, 0, 0, 0, 99] 0) = .next t :=
  ⟨{ legal := by decide
     memory := by decide
     pc := by decide
     record := by simp [State.FaultRecordOk, blockAt]
     halt := by decide }, ⟨_, rfl⟩⟩

theorem witness_TransactionsKeepTheInvariant :
    (blockIn .idle [1, 0, 0, 0, 99]).Inv ∧
    (Transaction.seed maxW minW).wellFormed (blockIn .idle [1, 0, 0, 0, 99]).cfg.wordBits = true ∧
    (Transaction.load [maxW, minW]).wellFormed (blockIn .idle [1, 0, 0, 0, 99]).cfg.wordBits = true :=
  ⟨idle_block_inv, by decide, by decide⟩

theorem witness_ReachablePcIsAlignedAndBounded : Reachable State.reset := .reset Config.reference (by decide)

-- ReachableFaultRecordNamesTheFault: reset, and a SEED that faults on it
theorem witness_ReachableFaultRecordNamesTheFault :
    Reachable State.reset ∧ Reachable (transact (.seed 1 2) State.reset).2 ∧
    (transact (.seed 1 2) State.reset).2.faultCause = .bounds :=
  ⟨.reset Config.reference (by decide), .host State.reset (.seed 1 2) (.reset Config.reference (by decide)) (by decide), by decide⟩

-- two different blocks of one configuration, an image of exactly MEM_DEPTH words
theorem witness_RunDependsOnImageSeedAndConfiguration :
    let s := blockIn .idle []
    let s' := blockIn .halted [99]
    s.cfg = s'.cfg ∧ s.rs ≠ .running ∧ s'.rs ≠ .running ∧ (List.replicate 16 (99 : Int)).length ≤ s.cfg.memDepth := by
  decide

-- E2 (no seed, Halted), E2b (a seed, Failed), and T2 (the SEED itself faults)
theorem witness_DriverRunAlwaysEnds :
    State.reset.rs ≠ .running ∧ ([1, 9, 10, 3, 2, 3, 11, 0, 99, 30, 40, 50] : List Int).length ≤ State.reset.cfg.memDepth ∧
    driverRun [1, 9, 10, 3, 2, 3, 11, 0, 99, 30, 40, 50] none State.reset = .result 3500 ∧
    driverRun [1, 9, 10, 3, 2, 3, 11, 0, 99, 30, 40, 50] (some (30, 40)) State.reset =
      .error .bounds (some .readOperandA) 30 0 ∧
    driverRun [99] (some (5, 6)) State.reset = .error .bounds (some .hostSeed) 1 0 := by decide

end Sys2Proof.Tests
end

/-! ### PROOFS for 00_scope.md. `wrap_W` as the one word of a residue class (00_scope.md R10). -/

namespace Sys2Proof.Machine

/-- A wrapped value differs from the value by a multiple of `2^W`. -/
theorem two_pow_dvd_wrapWord_sub (w : Nat) (v : Int) : (2 : Int) ^ w ∣ wrapWord w v - v := by
  have h : ((2 ^ w : Nat) : Int) ∣ Int.bmod v (2 ^ w) - v := Int.dvd_bmod_sub_self
  rwa [Nat.cast_pow, Nat.cast_ofNat] at h

/-- Values congruent modulo `2^W` wrap to one word. -/
theorem wrapWord_congr {w : Nat} {a b : Int} (h : (2 : Int) ^ w ∣ a - b) : wrapWord w a = wrapWord w b := by
  refine (Int.bmod_eq_bmod_iff_bmod_sub_eq_zero).2 (Int.bmod_eq_zero_of_dvd ?_)
  rwa [Nat.cast_pow, Nat.cast_ofNat]

/-- The low W bits of a value, read as two's complement, are the wrapped value. -/
theorem wordOfPattern_patternOfWord_eq_wrapWord (w : Nat) (v : Int) :
    wordOfPattern (patternOfWord w v) = wrapWord w v := BitVec.toInt_ofInt ..

/-- Settles O25. A word congruent to `v` wraps to itself and to what `v` wraps to, which gives the uniqueness. -/
theorem wrapIsTheOneWordCongruent : Obligations.WrapIsTheOneWordCongruent := by
  intro w v hw
  have hw1 : 1 ≤ w := by omega
  refine ⟨wrapWord_inWord hw1 v, two_pow_dvd_wrapWord_sub w v, fun r hr hdvd => ?_,
    (wordOfPattern_patternOfWord_eq_wrapWord w v).symm⟩
  calc r = wrapWord w r := (wrapWord_of_inWord hw1 hr).symm
    _ = wrapWord w v := wrapWord_congr hdvd

end Sys2Proof.Machine

/-! ### PROOFS for 00_scope.md. The invariant holds at reset, and each thing a step can do keeps it: fault entry with a
true record, Halt, and the write and advance of an Add or a Mul. -/

namespace Sys2Proof.Machine

theorem Config.reference_legal : Config.reference.Legal := by decide

/-- The reset state has the invariant (10_state.md R32, R33). -/
theorem State.Inv.resetWith {c : Config} (hc : c.Legal) : (State.resetWith c).Inv where
  legal := hc
  memory := ⟨Memory.wf_nil, by simp, Nat.zero_le _⟩
  pc := by simp [State.PcOk]
  record := by simp [State.FaultRecordOk]
  halt := by simp [State.HaltOk]

/-- Settles O46. -/
theorem resetHasTheInvariant : Obligations.ResetHasTheInvariant :=
  ⟨fun _ => State.Inv.resetWith, State.Inv.resetWith Config.reference_legal⟩

/-- Fault entry keeps the invariant where the record it writes is a true one (60_exceptions.md R99, R103). -/
theorem State.Inv.raise {s : State} (hs : s.Inv) {e : BlockError} (hv : InWord s.cfg.wordBits e.value)
    (hc : (s.raise e).CauseOk e.cause) : (s.raise e).Inv where
  legal := hs.legal
  memory := hs.memory
  pc := by
    obtain ⟨hmod, hle, -⟩ := hs.pc
    exact ⟨hmod, hle, by simp⟩
  record := by
    rw [State.FaultRecordOk, if_pos (State.raise_rs s e)]
    exact ⟨rfl, hv, hc⟩
  halt := by simp [State.HaltOk]

/-- A BoundsError keeps the invariant where its address is the one the access makes, and is out of bounds (R94, R96). -/
theorem State.Inv.raise_boundsError {s : State} (hs : s.Inv) {addr : Int} {acc : Access}
    (hv : InWord s.cfg.wordBits addr) (hval : (s.raise (.boundsError addr acc)).BoundsValueOk acc)
    (hout : ¬ s.inBounds addr) : (s.raise (.boundsError addr acc)).Inv :=
  hs.raise hv ⟨acc, rfl, hval, hout⟩

/-- An address up to N + 3 is a word. -/
theorem State.Inv.natCast_inWord {s : State} (hs : s.Inv) {a : Nat} (ha : a ≤ s.memLen + 3) :
    InWord s.cfg.wordBits (a : Int) :=
  inWord_natCast ((Int.ofNat_le.2 ha).trans (State.memLen_add_three_le hs.legal hs.memory))

/-- A failing fetch records the pc, the opcode or the first operand address out of bounds, so taking its error keeps the
invariant (40_cycle.md R69, R71, R75). -/
theorem State.Inv.raise_fetch_error {s : State} (hs : s.Inv) {e : BlockError} (h : s.fetch = .error e) :
    (s.raise e).Inv := by
  rcases s.fetch_cases with ⟨hN, hf⟩ | ⟨hpc, hop, hf⟩ | ⟨-, -, hf⟩ | ⟨hpc, hN, -, hf⟩ |
    ⟨-, -, hf⟩ | ⟨-, -, hf⟩ <;>
    rw [hf] at h <;> cases h
  · obtain ⟨-, hle, -⟩ := hs.pc
    have hout : ¬ s.inBounds (s.pc : Int) := mt State.inBounds_natCast.1 (by omega)
    exact hs.raise_boundsError (hs.natCast_inWord hle) rfl hout
  · exact hs.raise (hs.memory.read_inWord _) ⟨rfl, hop, hpc, rfl⟩
  · have hout : ¬ s.inBounds (s.memLen : Int) := mt State.inBounds_natCast.1 (lt_irrefl _)
    have hval : (s.pc : Int) + 1 ≤ s.memLen ∧ (s.memLen : Int) ≤ (s.pc : Int) + 3 := by omega
    exact hs.raise_boundsError (hs.natCast_inWord (by omega)) hval hout

/-- Halt at a Halt word inside memory keeps the invariant (42_halt.md R90, R91). -/
theorem State.Inv.setRunState_halted {s : State} (hs : s.Inv) (hr : s.rs = .running) (hpc : s.pc < s.memLen)
    (hop : s.mem.read s.pc = haltCode) : (s.setRunState .halted).Inv where
  legal := hs.legal
  memory := hs.memory
  pc := by
    obtain ⟨hmod, hle, -⟩ := hs.pc
    exact ⟨hmod, hle, by simp⟩
  record := by simpa [State.FaultRecordOk, hr] using hs.record
  halt := fun _ => ⟨hpc, hop⟩

/-- Storing a word in bounds and advancing past four words inside memory keeps the invariant (R76, R77). -/
theorem State.Inv.store_advancePc {s : State} (hs : s.Inv) (hr : s.rs = .running) (hN : s.pc + 4 ≤ s.memLen)
    {a : Nat} {r : Int} (ha : a < s.memLen) (hw : InWord s.cfg.wordBits r) :
    (s.setMem (s.mem.write a r)).advancePc.Inv where
  legal := hs.legal
  memory := hs.memory.setMem_write ha hw
  pc := by
    obtain ⟨hmod, -, -⟩ := hs.pc
    have hmod' : (s.pc + 4) % 4 = 0 := by omega
    have hle' : s.pc + 4 ≤ s.memLen + 3 := by omega
    exact ⟨hmod', hle', by simp [hr]⟩
  record := by simpa [State.FaultRecordOk, hr] using hs.record
  halt := by simp [State.HaltOk, hr]

theorem AluKind.opcode_eq (k : AluKind) : k.opcode = addCode ∨ k.opcode = mulCode := by
  cases k <;> simp [AluKind.opcode]

/-- An Add or a Mul whose words stand at the pc keeps the invariant, whether it faults or completes (R84, R85). -/
theorem State.Inv.execArith_next {s t : State} (hs : s.Inv) (hr : s.rs = .running) (hN : s.pc + 4 ≤ s.memLen)
    {k : AluKind} (hop : s.mem.read s.pc = k.opcode)
    (h : execArith k (s.mem.read (s.pc + 1)) (s.mem.read (s.pc + 2)) (s.mem.read (s.pc + 3)) s = .next t) : t.Inv := by
  have word := hs.memory.read_inWord
  rcases execArith_cases h with ⟨h1, rfl⟩ | ⟨-, h2, rfl⟩ | ⟨-, -, hm, -, rfl⟩ | ⟨r, -, -, -, h3, rfl⟩ |
    ⟨r, -, -, halu, h3, rfl⟩
  · exact hs.raise_boundsError (word _) rfl h1
  · exact hs.raise_boundsError (word _) rfl h2
  · exact hs.raise (hop ▸ word s.pc) ⟨rfl, hm, hop.symm, k.opcode_eq⟩
  · exact hs.raise_boundsError (word _) rfl h3
  · have hw : InWord s.cfg.wordBits r := alu_ok_inWord (by have := hs.legal.1; omega) halu
    exact hs.store_advancePc hr hN (State.inBounds_natCast.1 (by rwa [Int.toNat_of_nonneg h3.1])) hw

/-- Settles O47, by what a step can do: take the error of its fetch, halt, or execute an Add or a Mul fetched at
the pc. -/
theorem stepKeepsTheInvariant : Obligations.StepKeepsTheInvariant := by
  intro s t hs h
  obtain ⟨hr, ⟨e, he, rfl⟩ | ⟨i, hi, hexec⟩⟩ := step_cases h
  · exact hs.raise_fetch_error he
  · rcases s.fetch_cases with ⟨-, hf⟩ | ⟨-, -, hf⟩ | ⟨hpc, hop, hf⟩ | ⟨-, -, -, hf⟩ |
      ⟨hN, hop, hf⟩ | ⟨hN, hop, hf⟩ <;>
      rw [hf] at hi <;> cases hi
    · cases hexec
      exact hs.setRunState_halted hr hpc hop
    · exact hs.execArith_next (k := .add) hr hN hop hexec
    · exact hs.execArith_next (k := .mul) hr hN hop hexec

end Sys2Proof.Machine

/-! ### PROOFS for 10_state.md. Each host transaction keeps the invariant; what steps and transactions leave unchanged; and
what the invariant says of every reachable state. -/

namespace Sys2Proof.Machine

/-! #### The invariant under the host port -/

/-- A word written in bounds while Idle keeps the invariant (70_reset_and_hazards.md R115). -/
theorem State.Inv.setMem_write {s : State} (hs : s.Inv) (hr : s.rs = .idle) {a : Nat} {v : Int} (ha : a < s.memLen)
    (hv : InWord s.cfg.wordBits v) : (s.setMem (s.mem.write a v)).Inv where
  legal := hs.legal
  memory := hs.memory.setMem_write ha hv
  pc := hs.pc
  record := by simpa [State.FaultRecordOk, hr] using hs.record
  halt := by simp [State.HaltOk, hr]

/-- An image of words that fits gives a state with the invariant (R114). -/
theorem State.Inv.loaded {s : State} (hs : s.Inv) {image : List Int} (hlen : image.length ≤ s.cfg.memDepth)
    (hw : ∀ v ∈ image, InWord s.cfg.wordBits v) : (s.loaded image).Inv where
  legal := hs.legal
  memory := by
    refine ⟨Memory.wf_ofWords 0 image, fun c hc => ?_, hlen⟩
    obtain ⟨-, hlt, hmem, -⟩ := Memory.mem_ofWords 0 image hc
    exact ⟨by simpa using hlt, hw _ hmem⟩
  pc := by simp [State.PcOk]
  record := by simp [State.FaultRecordOk]
  halt := by simp [State.HaltOk]

/-- START from Idle keeps the invariant (R117). -/
theorem State.Inv.setRunState_running {s : State} (hs : s.Inv) (hr : s.rs = .idle) :
    (s.setRunState .running).Inv where
  legal := hs.legal
  memory := hs.memory
  pc := by
    obtain ⟨hmod, hle, -⟩ := hs.pc
    exact ⟨hmod, hle, by simp⟩
  record := by simpa [State.FaultRecordOk, hr] using hs.record
  halt := by simp [State.HaltOk]

/-- The fault of a SEED write to address 1 or 2 in Idle keeps the invariant: the pc is 0 there (R115). -/
theorem State.Inv.raise_hostSeed {s : State} (hs : s.Inv) (hr : s.rs = .idle) {a : Nat} (ha : a = 1 ∨ a = 2)
    (hN : s.memLen ≤ a) : (s.raise (.boundsError (a : Int) .hostSeed)).Inv := by
  obtain ⟨-, -, hpc⟩ := hs.pc
  have haddr : (a : Int) = nounAddr ∨ (a : Int) = verbAddr := by simp only [nounAddr, verbAddr]; omega
  have hout : ¬ s.inBounds (a : Int) := mt State.inBounds_natCast.1 (by omega)
  exact hs.raise_boundsError (hs.natCast_inWord (by omega)) ⟨hpc hr, haddr⟩ hout

/-- Settles O48, by what a transaction can do to the state: nothing, reset, a new run, a seeding that faults on its first
or second write or completes, or the start of the run. -/
theorem transactionsKeepTheInvariant : Obligations.TransactionsKeepTheInvariant := by
  intro s tr hs hwf
  rcases transact_state_cases tr s with h | ⟨-, h⟩ | ⟨image, rfl, -, hlen, h⟩ | ⟨noun, verb, rfl, hr, hseed⟩ | ⟨-, hr, h⟩
  · rwa [h]
  · rw [h]
    exact .resetWith hs.legal
  · rw [h]
    have hwords : ∀ v ∈ image, InWord s.cfg.wordBits v := by simpa [Transaction.wellFormed] using hwf
    exact hs.loaded hlen hwords
  · have hwords : InWord s.cfg.wordBits noun ∧ InWord s.cfg.wordBits verb := by
      simpa [Transaction.wellFormed] using hwf
    obtain ⟨hnoun, hverb⟩ := hwords
    rcases hseed with ⟨hN, h⟩ | ⟨hN, h⟩ | ⟨hN, h⟩ <;> rw [h]
    · exact hs.raise_hostSeed (a := 1) hr (.inl rfl) hN
    · have hs1 := hs.setMem_write hr (a := 1) (by omega) hnoun
      exact hs1.raise_hostSeed (a := 2) hr (.inr rfl) hN.le
    · have hs1 := hs.setMem_write hr (a := 1) (by omega) hnoun
      have h2 : 2 < (s.setMem (s.mem.write 1 noun)).memLen := hN
      exact hs1.setMem_write hr h2 hverb
  · rw [h]
    exact hs.setRunState_running hr

/-! #### Every reachable state -/

/-- Every reachable state has the invariant. -/
theorem Reachable.inv {s : State} (h : Reachable s) : s.Inv := by
  induction h with
  | reset c legal => exact .resetWith legal
  | step s t _ hstep ih => exact stepKeepsTheInvariant s t ih hstep
  | host s tr _ hwf ih => exact transactionsKeepTheInvariant s tr ih hwf

/-- Settles O49, by the invariant; that the pc fits a word is the bound on MEM_DEPTH (00_scope.md R7). -/
theorem reachablePcIsAlignedAndBounded : Obligations.ReachablePcIsAlignedAndBounded := by
  intro s h
  have hs := h.inv
  obtain ⟨hmod, hle, -⟩ := hs.pc
  exact ⟨hmod, hle, (hs.natCast_inWord hle).2⟩

/-- Outside Failed the fault record is empty (R21 to R24). -/
theorem State.Inv.record_of_not_failed {s : State} (hs : s.Inv) (hr : s.rs ≠ .failed) :
    s.faultCause = .none ∧ s.faultAccess = none ∧ s.faultValue = 0 ∧ s.faultPc = 0 := by
  simpa [State.FaultRecordOk, hr] using hs.record

/-- In Failed the record holds the pc and is true of its cause. -/
theorem State.Inv.record_of_failed {s : State} (hs : s.Inv) (hr : s.rs = .failed) :
    s.faultPc = s.pc ∧ s.CauseOk s.faultCause := by
  have h := hs.record
  rw [State.FaultRecordOk, if_pos hr] at h
  obtain ⟨hpc, -, hcause⟩ := h
  exact ⟨hpc, hcause⟩

/-- The cause is NONE exactly outside Failed (R21). -/
theorem State.Inv.faultCause_eq_none_iff {s : State} (hs : s.Inv) : s.faultCause = .none ↔ s.rs ≠ .failed := by
  refine ⟨fun hc hr => ?_, fun hr => (hs.record_of_not_failed hr).1⟩
  have hcause := (hs.record_of_failed hr).2
  rw [hc] at hcause
  exact hcause

/-- A cause other than NONE is that of a failed block, whose record is true of it. -/
theorem State.Inv.record_of_faultCause {s : State} (hs : s.Inv) {c : FaultCause} (hc : s.faultCause = c)
    (hne : c ≠ .none) : s.faultPc = s.pc ∧ s.CauseOk c := by
  subst hc
  exact hs.record_of_failed (by_contra fun hr => hne (hs.faultCause_eq_none_iff.2 hr))

/-- Settles O50: each clause is the part of the invariant for that cause, and for BOUNDS the case of its access. -/
theorem reachableFaultRecordNamesTheFault : Obligations.ReachableFaultRecordNamesTheFault := by
  intro s h
  have hs := h.inv
  refine ⟨hs.faultCause_eq_none_iff, fun hc => ?none, fun hc => (hs.record_of_faultCause rfl hc).1,
    fun hc => ?decode, fun hc => ?overflow, fun hc => ?bounds⟩
  case none => exact (hs.record_of_not_failed (hs.faultCause_eq_none_iff.1 hc)).2
  case decode =>
    obtain ⟨-, hacc, hop, -, hval⟩ := hs.record_of_faultCause hc (by decide)
    exact ⟨hacc, hval.symm, operandCount_eq_none.1 hop⟩
  case overflow =>
    obtain ⟨-, hacc, -, hval, hop⟩ := hs.record_of_faultCause hc (by decide)
    exact ⟨hacc, hval, hop⟩
  case bounds =>
    obtain ⟨hpc, acc, hacc, hval, hout⟩ := hs.record_of_faultCause hc (by decide)
    refine ⟨by simp only [State.inBounds] at hout; omega, ?_⟩
    cases acc with
    | fetchOpcode => exact .inl ⟨hacc, hval⟩
    | fetchOperandAddr =>
      obtain ⟨hlo, hhi⟩ := hval
      exact .inr (.inl ⟨hacc, (s.faultValue - s.pc).toNat, by omega, by omega, by omega⟩)
    | readOperandA => exact .inr (.inr (.inl ⟨hacc, hval⟩))
    | readOperandB => exact .inr (.inr (.inr (.inl ⟨hacc, hval⟩)))
    | writeResult => exact .inr (.inr (.inr (.inr (.inl ⟨hacc, hval⟩))))
    | hostSeed =>
      obtain ⟨hpc0, haddr⟩ := hval
      exact .inr (.inr (.inr (.inr (.inr ⟨hacc, hpc.trans hpc0, haddr⟩))))

/-! #### What a step leaves unchanged -/

/-- Settles O12: a Running block steps, and each effect of a step is one of the three ends. -/
theorem runningBlockAlwaysSteps : Obligations.RunningBlockAlwaysSteps := by
  intro s hr
  obtain ⟨t, h⟩ := step_next hr
  refine ⟨t, h, ?_⟩
  obtain ⟨-, ⟨e, rfl⟩ | ⟨-, -, rfl⟩ | ⟨r, a, -, -, -, -, rfl⟩⟩ := step_effects h
  · exact .inr (.inr ⟨rfl, rfl, rfl, rfl⟩)
  · exact .inr (.inl ⟨rfl, rfl, rfl, rfl⟩)
  · exact .inl ⟨hr, rfl, rfl⟩

/-- What Add and Mul leave unchanged: everything but the record and the run state where they fault, everything but the pc
and the destination word where they complete (R37, R76, R79). -/
theorem execArith_frame {k : AluKind} {p1 p2 p3 : Int} {s t : State} (h : execArith k p1 p2 p3 s = .next t) :
    (∃ e, t = s.raise e) ∨
    ∃ r, t = (s.setMem (s.mem.write p3.toNat r)).advancePc ∧
      ∀ x : Nat, (x : Int) ≠ p3 → t.mem.read x = s.mem.read x := by
  rcases execArith_cases h with ⟨-, h⟩ | ⟨-, -, h⟩ | ⟨-, -, -, -, h⟩ | ⟨-, -, -, -, -, h⟩ | ⟨r, -, -, -, ⟨hp, -⟩, rfl⟩
  iterate 4 exact .inl ⟨_, h⟩
  exact .inr ⟨r, rfl, fun x hx => Memory.read_write_other _ _ _ _ (by omega)⟩

/-- Settles O22, by the frame of the shared meaning of Add and Mul. -/
theorem addMulFrame : Obligations.AddMulFrame := by
  intro s t i p1 p2 p3 hi h
  have harith : ∃ k, execArith k p1 p2 p3 s = .next t := by
    rcases hi with rfl | rfl
    · exact ⟨.add, h⟩
    · exact ⟨.mul, h⟩
  obtain ⟨k, hk⟩ := harith
  obtain ⟨e, rfl⟩ | ⟨r, rfl, hread⟩ := execArith_frame hk
  · exact ⟨rfl, rfl, fun _ _ => rfl, .inr ⟨rfl, rfl, rfl, rfl⟩⟩
  · exact ⟨rfl, rfl, hread, .inl ⟨rfl, rfl, rfl, rfl, rfl, rfl⟩⟩

/-! #### What steps and transactions leave unchanged -/

/-- Settles O34: fault entry is the one effect of a step that writes the record; of the transactions, RESET and LOAD
clear it, and a SEED that faults writes it. -/
theorem faultRecordWrittenByFaultEntryOnly : Obligations.FaultRecordWrittenByFaultEntryOnly := by
  refine ⟨fun s t h hr => ?_, fun s tr => ?_⟩
  · obtain ⟨-, ⟨e, rfl⟩ | ⟨-, -, rfl⟩ | ⟨r, a, -, -, -, -, rfl⟩⟩ := step_effects h
    · exact absurd rfl hr
    · exact ⟨rfl, rfl, rfl, rfl⟩
    · exact ⟨rfl, rfl, rfl, rfl⟩
  rcases transact_state_cases tr s with h | ⟨rfl, h⟩ | ⟨image, rfl, -, -, h⟩ | ⟨noun, verb, rfl, -, -⟩ | ⟨-, -, h⟩
  · exact .inl (by simp [h])
  · exact .inr (.inl ⟨.inl rfl, by simp [h]⟩)
  · exact .inr (.inl ⟨.inr ⟨image, rfl⟩, by simp [h]⟩)
  · rw [transact]
    rcases doSeed_cases noun verb s with ⟨-, h⟩ | ⟨-, -, h⟩ | ⟨-, -, h⟩ | ⟨-, -, h⟩ <;> rw [h]
    · exact .inl ⟨rfl, rfl, rfl, rfl⟩
    · exact .inr (.inr ⟨⟨noun, verb, rfl⟩, rfl, rfl⟩)
    · exact .inr (.inr ⟨⟨noun, verb, rfl⟩, rfl, rfl⟩)
    · exact .inl ⟨rfl, rfl, rfl, rfl⟩
  · exact .inl (by simp [h])

/-- A block that has halted or failed is neither Idle nor Running. -/
theorem State.Ended.not_idle_not_running {s : State} (h : s.Ended) : s.rs ≠ .idle ∧ s.rs ≠ .running := by
  rcases h with h | h <;> simp [h]

/-- Settles O43. -/
theorem haltedAndFailedAreTerminal : Obligations.HaltedAndFailedAreTerminal := by
  intro s hend
  obtain ⟨hidle, hrun⟩ := State.Ended.not_idle_not_running hend
  refine ⟨fun t h => hrun (step_cases h).1, fun noun verb => if_neg hidle, if_neg hidle, fun tr hne => ?_⟩
  rcases transact_state_cases tr s with h | ⟨htr, -⟩ | ⟨image, htr, -⟩ | ⟨-, -, -, hr, -⟩ | ⟨-, hr, -⟩
  · exact absurd h hne
  · exact .inl htr
  · exact .inr ⟨image, htr⟩
  · exact absurd hr hidle
  · exact absurd hr hidle

/-- No step changes the configuration or N (R15, R34). -/
theorem step_cfg_memLen {s t : State} (h : step s = .next t) : t.cfg = s.cfg ∧ t.memLen = s.memLen := by
  obtain ⟨-, ⟨e, rfl⟩ | ⟨-, -, rfl⟩ | ⟨r, a, -, -, -, -, rfl⟩⟩ := step_effects h <;> exact ⟨rfl, rfl⟩

/-- Settles O44. -/
theorem memoryLengthIsFixedForTheRun : Obligations.MemoryLengthIsFixedForTheRun := by
  refine ⟨fun s t h => (step_cfg_memLen h).2, fun s t image h => ?load, fun s tr => ?transact,
    fun s addr v acc hN => ?access⟩
  case load =>
    rw [transact] at h
    rcases doLoad_cases image s with ⟨-, hd⟩ | ⟨-, -, hd⟩ | ⟨-, -, hd⟩ <;> rw [hd] at h <;> cases h
    rfl
  case transact =>
    rcases transact_state_cases tr s with h | ⟨htr, -⟩ | ⟨image, htr, -⟩ |
      ⟨noun, verb, -, -, ⟨-, h⟩ | ⟨-, h⟩ | ⟨-, h⟩⟩ | ⟨-, -, h⟩
    case inr.inl => exact .inr (.inl htr)
    case inr.inr.inl => exact .inr (.inr ⟨image, htr⟩)
    all_goals exact .inl (by simp [h])
  case access =>
    have hout : ¬ s.inBounds addr := fun hb => absurd hb.2 (by omega)
    exact ⟨State.memRead_outOfBounds hout acc, State.memWrite_outOfBounds hout v acc⟩

/-- Settles O45. -/
theorem configurationIsConstant : Obligations.ConfigurationIsConstant := by
  refine ⟨fun s t h => (step_cfg_memLen h).1, fun s tr => ?_⟩
  rcases transact_state_cases tr s with h | ⟨-, h⟩ | ⟨image, -, -, -, h⟩ |
    ⟨noun, verb, -, -, ⟨-, h⟩ | ⟨-, h⟩ | ⟨-, h⟩⟩ | ⟨-, -, h⟩ <;> simp [h]

/-! #### The host port after reset, and the status registers -/

/-- Settles O36: N is 0 after reset, so no address is in bounds. -/
theorem nothingIsReadableAfterReset : Obligations.NothingIsReadableAfterReset := by
  intro c addr noun verb
  have hout : ¬ (State.resetWith c).inBounds addr := by simp [State.inBounds]
  refine ⟨?read, ?seed, (State.resetWith c).setRunState .running, rfl, ?step⟩
  case read => simp [transact, doRead, hout]
  case seed =>
    rcases doSeed_cases noun verb (State.resetWith c) with ⟨hr, -⟩ | ⟨-, -, h⟩ | ⟨-, hN, -⟩ | ⟨-, hN, -⟩
    · exact absurd rfl hr
    · exact h
    · cases hN
    · cases hN
  case step =>
    have hpc : ¬ ((State.resetWith c).setRunState .running).inBounds 0 := by simp [State.inBounds]
    exact step_of_fetch_error rfl (by simp [State.fetch, State.memRead_outOfBounds hpc])

/-- STATUS of a number that names a register responds with it (R119). -/
theorem transact_status_of_some {s : State} {n v : Int} (h : s.statusRegister n = some v) :
    transact (.status n) s = (.okWord v, s) := by
  simp [transact, doStatus, h]

/-- A number outside 0 to 6 names no status register (R28). -/
theorem State.statusRegister_eq_none (s : State) {n : Int} (h : n < 0 ∨ 6 < n) : s.statusRegister n = none := by
  rw [State.statusRegister]
  iterate 7 rw [if_neg (by omega)]

/-- Settles O41. -/
theorem statusGivesTheRegisters : Obligations.StatusGivesTheRegisters := by
  intro s
  refine ⟨transact_status_of_some ?rs, transact_status_of_some ?cause, transact_status_of_some ?access,
    transact_status_of_some rfl, transact_status_of_some rfl, transact_status_of_some rfl,
    transact_status_of_some rfl, fun n hn => ?other⟩
  case rs => cases h : s.rs <;> simp [State.statusRegister, h, RunState.code]
  case cause => cases h : s.faultCause <;> simp [State.statusRegister, h, FaultCause.code]
  case access =>
    cases h : s.faultAccess with
    | none => simp [State.statusRegister, h, accessCode]
    | some acc => cases acc <;> simp [State.statusRegister, h, accessCode, Access.code]
  case other => simp [transact, doStatus, s.statusRegister_eq_none hn]

end Sys2Proof.Machine

/-! ### PROOFS for 20_memory.md. The two memory primitives; the order in which an Add or a Mul meets its faults; and what
the step after a store to the next opcode decodes. -/

namespace Sys2Proof.Machine

/-! #### The memory primitives -/

/-- Settles O6. -/
theorem memoryPrimitivesCheckBounds : Obligations.MemoryPrimitivesCheckBounds := by
  intro s addr v acc hwf
  refine ⟨fun h0 hN => ?inside, fun hout => ?outside⟩
  case inside =>
    have hb : s.inBounds addr := ⟨h0, hN⟩
    refine ⟨State.memRead_inBounds hb acc, _, State.memWrite_inBounds hb v acc, rfl, fun a => ?_⟩
    have haddr : (a : Int) = addr ↔ a = addr.toNat := by omega
    simp only [haddr, State.setMem_mem, Memory.read_write _ hwf]
  case outside =>
    have hb : ¬ s.inBounds addr := by simp only [State.inBounds]; omega
    exact ⟨State.memRead_outOfBounds hb acc, State.memWrite_outOfBounds hb v acc⟩

/-- Reads depend on N and the word read alone (20_memory.md R36). -/
theorem State.memRead_congr {s t : State} {addr : Int} (hN : t.memLen = s.memLen)
    (hM : s.inBounds addr → t.mem.read addr.toNat = s.mem.read addr.toNat) (acc : Access) :
    t.memRead addr acc = s.memRead addr acc := by
  have hb : t.inBounds addr ↔ s.inBounds addr := by simp only [State.inBounds, hN]
  by_cases h : s.inBounds addr
  · rw [State.memRead_inBounds (hb.2 h), State.memRead_inBounds h, hM h]
  · rw [State.memRead_outOfBounds (mt hb.1 h), State.memRead_outOfBounds h]

/-- Settles O7. In bounds, different integer addresses are different words; out of bounds a read does not look at memory. -/
theorem readAfterWrite : Obligations.ReadAfterWrite := by
  intro s a v acc acc' hwf h0 hN
  have hb : s.inBounds a := ⟨h0, hN⟩
  refine ⟨_, State.memWrite_inBounds hb v acc, ?same, fun a2 hne => ?other⟩
  case same =>
    have hb' : (s.setMem (s.mem.write a.toNat v)).inBounds a := hb
    rw [State.memRead_inBounds hb', State.setMem_mem, Memory.read_write_same _ hwf]
  case other =>
    refine State.memRead_congr (s.setMem_memLen _) (fun hb2 => ?_) acc'
    have hne' : a2.toNat ≠ a.toNat := by omega
    exact Memory.read_write_other _ _ _ _ hne'

/-! #### The faults of an Add or a Mul, in the order of its accesses -/

/-- The ALU answers exactly where the overflow mode admits the result (R83). -/
theorem exists_alu_ok_iff {c : Config} {k : AluKind} {a b : Int} :
    (∃ r, alu c k a b = .ok r) ↔ c.overflowMode = .wrap ∨ InWord c.wordBits (k.exact a b) := by
  cases hm : c.overflowMode with
  | wrap => simp [alu_wrap hm]
  | checked => simp [alu_ok_iff, hm]

section
variable {s : State} {k : AluKind} {p1 p2 p3 : Int}

theorem execArith_of_p1_outOfBounds (h1 : ¬ s.inBounds p1) :
    execArith k p1 p2 p3 s = .next (s.raise (.boundsError p1 .readOperandA)) := by
  simp only [execArith, State.operandA, State.memRead_outOfBounds h1]

theorem execArith_of_p2_outOfBounds (h1 : s.inBounds p1) (h2 : ¬ s.inBounds p2) :
    execArith k p1 p2 p3 s = .next (s.raise (.boundsError p2 .readOperandB)) := by
  simp only [execArith, State.operandA, State.operandB, State.memRead_inBounds h1, State.memRead_outOfBounds h2]

theorem execArith_of_alu_error {e : BlockError} (h1 : s.inBounds p1) (h2 : s.inBounds p2)
    (h : alu s.cfg k (s.mem.read p1.toNat) (s.mem.read p2.toNat) = .error e) :
    execArith k p1 p2 p3 s = .next (s.raise e) := by
  simp only [execArith, State.operandA, State.operandB, State.memRead_inBounds h1, State.memRead_inBounds h2, h]

theorem execArith_of_p3_outOfBounds {r : Int} (h1 : s.inBounds p1) (h2 : s.inBounds p2)
    (h : alu s.cfg k (s.mem.read p1.toNat) (s.mem.read p2.toNat) = .ok r) (h3 : ¬ s.inBounds p3) :
    execArith k p1 p2 p3 s = .next (s.raise (.boundsError p3 .writeResult)) := by
  simp only [execArith, State.operandA, State.operandB, State.writeResult, State.memRead_inBounds h1,
    State.memRead_inBounds h2, State.memWrite_outOfBounds h3, h]

end

/-- Settles O33: Add and Mul are one meaning, whose faults are the four rules above. -/
theorem firstFaultIsReported : Obligations.FirstFaultIsReported := by
  intro s i op p1 p2 p3 exact hi
  have harith : ∃ k : AluKind, exec i s = execArith k p1 p2 p3 s ∧ op = k.opcode ∧
      exact = k.exact (s.mem.read p1.toNat) (s.mem.read p2.toNat) := by
    rcases hi with ⟨rfl, hop, hexact⟩ | ⟨rfl, hop, hexact⟩
    · exact ⟨.add, rfl, hop, hexact⟩
    · exact ⟨.mul, rfl, hop, hexact⟩
  obtain ⟨k, hexec, rfl, rfl⟩ := harith
  rw [hexec]
  refine ⟨execArith_of_p1_outOfBounds, execArith_of_p2_outOfBounds, fun h1 h2 hm hw => ?overflow,
    fun h1 h2 hadm h3 => ?writeResult⟩
  case overflow => exact execArith_of_alu_error h1 h2 (alu_checked_overflow hm hw)
  case writeResult =>
    obtain ⟨r, hr⟩ := exists_alu_ok_iff.2 hadm
    exact execArith_of_p3_outOfBounds h1 h2 hr h3

/-! #### The step, by the word at the pc -/

/-- The fetch of an Add or a Mul whose operand words run beyond the end of memory (R71). -/
theorem State.fetch_operand_outOfBounds {s : State} (hpc : s.pc < s.memLen) (hN : s.memLen < s.pc + 4)
    (hop : s.mem.read s.pc = addCode ∨ s.mem.read s.pc = mulCode) :
    s.fetch = .error (.boundsError (s.memLen : Int) .fetchOperandAddr) := by
  rcases s.fetch_cases with ⟨h, -⟩ | ⟨-, h, -⟩ | ⟨-, h, -⟩ | ⟨-, -, -, h⟩ | ⟨h, -, -⟩ | ⟨h, -, -⟩
  · omega
  · obtain ⟨hadd, hmul, -⟩ := operandCount_eq_none.1 h
    exact absurd hop (not_or.2 ⟨hadd, hmul⟩)
  · rw [h] at hop
    exact absurd hop (by decide)
  · exact h
  · omega
  · omega

/-- The step at an Add or a Mul inside memory. -/
theorem step_of_arith {s : State} {k : AluKind} (hr : s.rs = .running) (hN : s.pc + 4 ≤ s.memLen)
    (hop : s.mem.read s.pc = k.opcode) :
    step s = execArith k (s.mem.read (s.pc + 1)) (s.mem.read (s.pc + 2)) (s.mem.read (s.pc + 3)) s := by
  cases k with
  | add => exact step_of_fetch_ok hr (State.fetch_add hN hop)
  | mul => exact step_of_fetch_ok hr (State.fetch_mul hN hop)

/-- Settles O8. The store leaves the block Running at pc + 4 with the word `r` there, and each clause is the rule of the
step for that word. -/
theorem nextFetchSeesTheWrite : Obligations.NextFetchSeesTheWrite := by
  intro s k r hr hwf hN hop h1 h2 hp3 halu
  have h3 : s.inBounds (s.mem.read (s.pc + 3)) := by rw [hp3]; exact ⟨by omega, by omega⟩
  have haddr : (s.mem.read (s.pc + 3)).toNat = s.pc + 4 := by omega
  obtain ⟨t, hstep, hrt, hpc, hlen, hmem⟩ : ∃ t, step s = .next t ∧ t.rs = .running ∧ t.pc = s.pc + 4 ∧
      t.memLen = s.memLen ∧ ∀ a, t.mem.read a = if a = s.pc + 4 then r else s.mem.read a := by
    refine ⟨(s.setMem (s.mem.write (s.pc + 4) r)).advancePc, ?_, hr, rfl, rfl, fun a => Memory.read_write _ hwf _ a r⟩
    rw [step_of_arith hr hN.le hop, execArith_of_ok h1 h2 h3 halu, haddr]
  have hopt : t.mem.read t.pc = r := by rw [hmem, hpc, if_pos rfl]
  have hNt : t.pc < t.memLen := by omega
  refine ⟨t, hstep, hrt, hpc, hlen, hmem, fun h hend => ?add, fun h hend => ?mul, fun h hend => ?beyond,
    fun h => ?halt, fun hadd hmul hhalt => ?illegal⟩
  case add => simpa [hpc] using step_of_arith (k := .add) hrt (by omega) (hopt.trans h)
  case mul => simpa [hpc] using step_of_arith (k := .mul) hrt (by omega) (hopt.trans h)
  case beyond =>
    rw [← hlen]
    exact step_of_fetch_error hrt (State.fetch_operand_outOfBounds hNt (by omega) (by rwa [hopt]))
  case halt => exact ⟨_, step_of_fetch_ok hrt (State.fetch_halt hNt (hopt.trans h)), rfl⟩
  case illegal =>
    have hcount : operandCount (t.mem.read t.pc) = none := by
      rw [hopt]
      exact operandCount_eq_none.2 ⟨hadd, hmul, hhalt⟩
    exact ⟨_, step_of_fetch_error hrt (State.fetch_illegal hNt hcount), rfl, rfl, hopt, hpc⟩

end Sys2Proof.Machine

/-! ### PROOFS for 30_encoding.md. The decoder and the encoder are inverse to each other, on words and on the bits of a table
number; the step fetches what is encoded at the pc; and the words that assembly lines emit. -/

namespace Sys2Proof

/-! #### Decode and encode, on words -/

/-- The decoder answers an instruction exactly where its encoding heads the words (30_encoding.md R55 to R60). -/
theorem decode_eq_ok_iff {ws rest : List Int} {i : Instr} : decode ws = .ok (i, rest) ↔ ws = encode i ++ rest := by
  constructor
  · intro h
    unfold decode at h
    split at h
    · cases h
    · split_ifs at h with hadd hmul hhalt
      · split at h <;> cases h
        rw [hadd]
        rfl
      · split at h <;> cases h
        rw [hmul]
        rfl
      · cases h
        rw [hhalt]
        rfl
  · rintro rfl
    cases i <;> rfl

/-- A table number decodes to an instruction exactly where its four words begin with the encoding. -/
theorem decodeTable_eq_some_iff {w nbits n : Nat} {i : Instr} :
    decodeTable w nbits n = some i ↔ ∃ rest, tableWords w nbits n = encode i ++ rest := by
  simp only [← decode_eq_ok_iff, decodeTable]
  cases decode (tableWords w nbits n) with
  | error r => simp
  | ok p => simp [Prod.ext_iff]

/-- No instruction is longer than four words (R56, R57). -/
theorem encode_length_le_four (i : Instr) : (encode i).length ≤ 4 := by
  cases i <;> simp [encode]

/-- The opcodes fit a word of 8 bits, the least width (00_scope.md R6). -/
theorem opcode_inWord {w : Nat} (hw : 8 ≤ w) : InWord w addCode ∧ InWord w mulCode ∧ InWord w haltCode := by
  have hpow : 2 ^ 7 ≤ 2 ^ (w - 1) := Nat.pow_le_pow_right (by decide) (by omega)
  simp only [InWord, minWord, maxWord, addCode, mulCode, haltCode]
  omega

/-- An instruction is well formed exactly where every word of its encoding is a W-bit word (R53, R56). -/
theorem wellFormed_iff_encode_inWord {w : Nat} (hw : 8 ≤ w) (i : Instr) :
    i.wellFormed w = true ↔ ∀ v ∈ encode i, InWord w v := by
  obtain ⟨hadd, hmul, hhalt⟩ := opcode_inWord hw
  cases i with
  | add p1 p2 p3 => simp [Instr.wellFormed, encode, hadd, and_assoc]
  | mul p1 p2 p3 => simp [Instr.wellFormed, encode, hmul, and_assoc]
  | halt => simpa [Instr.wellFormed, encode] using hhalt

/-! #### Decode and encode, on the bits of a table number (log 13) -/

/-- The bits that up to four words fill are read as these words, with 0 for the words not given (log 7). -/
theorem tableWords_tableNumber {w : Nat} (hw : 1 ≤ w) {vs : List Int} (hlen : vs.length ≤ 4)
    (hvs : ∀ v ∈ vs, InWord w v) :
    tableWords w (w * vs.length) (tableNumber w vs) = vs ++ List.replicate (4 - vs.length) 0 := by
  rw [tableWords, Nat.mod_eq_of_lt (tableNumber_lt w vs)]
  apply List.ext_getElem
  · simp [Nat.add_sub_cancel' hlen]
  intro k hk _
  simp only [List.length_map, List.length_cons, List.length_nil] at hk
  have hidx : [0, 1, 2, 3][k] = k := by interval_cases k <;> rfl
  rw [List.getElem_map, hidx, tablePattern_tableNumber]
  by_cases hkl : k < vs.length
  · simp [hkl, wordOfPattern_patternOfWord hw (hvs _ (List.getElem_mem hkl))]
  · simp [hkl, List.getElem_append_right (Nat.le_of_not_lt hkl), wordOfPattern]

/-- Settles O2. The bits of the encoding are read as its words, which the decoder reads as the instruction. -/
theorem decodeEncodeRoundTrip : Obligations.DecodeEncodeRoundTrip := by
  intro w i hw hwf
  have hwords : ∀ v ∈ encode i, InWord w v := (wellFormed_iff_encode_inWord hw i).1 hwf
  exact decodeTable_eq_some_iff.2 ⟨_, tableWords_tableNumber (by omega) (encode_length_le_four i) hwords⟩

/-- The first words of a table number are the words of its lowest patterns. -/
theorem take_tableWords {w nbits n len : Nat} (hlen : len ≤ 4) :
    (tableWords w nbits n).take len =
      (List.range len).map fun k => wordOfPattern (tablePattern w (n % 2 ^ nbits) k) := by
  have hrange : [0, 1, 2, 3].take len = List.range len := by
    rw [show [0, 1, 2, 3] = List.range 4 from rfl, List.take_range, Nat.min_eq_left hlen]
  rw [tableWords, ← List.map_take, hrange]

/-- Settles O3. The encoding is the first words of the table number, each of them read from a W-bit pattern. -/
theorem decodedBitsAreTheEncoding : Obligations.DecodedBitsAreTheEncoding := by
  intro w nbits n i hw h
  obtain ⟨rest, hrest⟩ := decodeTable_eq_some_iff.1 h
  have hencode : encode i =
      (List.range (encode i).length).map fun k => wordOfPattern (tablePattern w (n % 2 ^ nbits) k) := by
    rw [← take_tableWords (encode_length_le_four i), hrest, List.take_left]
  constructor
  · rw [wellFormed_iff_encode_inWord hw, hencode]
    simp only [List.forall_mem_map]
    exact fun k _ => wordOfPattern_inWord (by omega) _
  · conv_lhs => rw [hencode]
    exact tableNumber_map_tablePattern w (n % 2 ^ nbits) _

/-- Settles O1, by evaluating the decoder on the closed numbers. -/
theorem tableWordsDecode : Obligations.TableWordsDecode := by
  unfold Obligations.TableWordsDecode
  decide

end Sys2Proof

namespace Sys2Proof.Machine

/-! #### The step, by the words at the pc -/

/-- The fetch of an instruction whose encoding stands in bounds at the pc (40_cycle.md R68, R70). -/
theorem State.fetch_of_encode {s : State} {i : Instr}
    (h : ∀ k, k < (encode i).length → s.pc + k < s.memLen ∧ (encode i)[k]? = some (s.mem.read (s.pc + k))) :
    s.fetch = .ok i := by
  have word : ∀ {k v}, (encode i)[k]? = some v → s.pc + k < s.memLen ∧ s.mem.read (s.pc + k) = v := by
    intro k v hv
    obtain ⟨hN, hread⟩ := h k (List.getElem?_eq_some_iff.1 hv).1
    exact ⟨hN, Option.some.inj (hread.symm.trans hv)⟩
  cases i with
  | add p1 p2 p3 =>
    obtain ⟨hN, h3⟩ := word (k := 3) rfl
    rw [State.fetch_add hN (word (k := 0) rfl).2, (word (k := 1) rfl).2, (word (k := 2) rfl).2, h3]
  | mul p1 p2 p3 =>
    obtain ⟨hN, h3⟩ := word (k := 3) rfl
    rw [State.fetch_mul hN (word (k := 0) rfl).2, (word (k := 1) rfl).2, (word (k := 2) rfl).2, h3]
  | halt =>
    obtain ⟨hN, h0⟩ := word (k := 0) rfl
    exact State.fetch_halt hN h0

/-- Settles O9. -/
theorem stepRunsDecodedInstruction : Obligations.StepRunsDecodedInstruction :=
  fun _ _ hr h => step_of_fetch_ok hr (State.fetch_of_encode h)

/-- Words placed at the pc are in bounds there, and are what memory reads as (log 7). -/
theorem State.placeAtPc_getElem? {s : State} (hwf : s.mem.wf) {ws : List Int} {k : Nat} (hk : k < ws.length) :
    (s.placeAtPc ws).pc + k < (s.placeAtPc ws).memLen ∧
      ws[k]? = some ((s.placeAtPc ws).mem.read ((s.placeAtPc ws).pc + k)) := by
  constructor
  · rw [State.placeAtPc_pc, State.placeAtPc_memLen]
    omega
  · simp [Memory.read_writeWords _ hwf, hk]

/-- Settles O10. The placed words begin with the encoding of the instruction that the number decodes to. -/
theorem placedInstructionRuns : Obligations.PlacedInstructionRuns := by
  intro s nbits n i hwf h
  obtain ⟨rest, hwords⟩ := decodeTable_eq_some_iff.1 h
  rw [State.withFetchWord, hwords]
  refine stepRunsDecodedInstruction _ i rfl fun k hk => ?_
  have hlen : k < (encode i ++ rest).length := by
    rw [List.length_append]
    omega
  rw [← List.getElem?_append_left (l₂ := rest) hk]
  exact State.placeAtPc_getElem? hwf hlen

/-- Settles O14: the first operand address out of bounds is N. -/
theorem operandFetchBeyondEndFails : Obligations.OperandFetchBeyondEndFails := by
  intro s k hr hop hk1 hk3 hout hin
  have hpc : s.pc < s.memLen := hin 0 hk1
  have hlast : s.pc + (k - 1) < s.memLen := hin (k - 1) (by omega)
  have haddr : ((s.pc : Int) + (k : Int)) = (s.memLen : Int) := by omega
  rw [haddr]
  exact step_of_fetch_error hr (State.fetch_operand_outOfBounds hpc (by omega) hop)

/-- Settles O4. -/
theorem illegalOpcodeFails : Obligations.IllegalOpcodeFails := by
  intro s hr hpc hadd hmul hhalt
  have hcount : operandCount (s.mem.read s.pc) = none := operandCount_eq_none.2 ⟨hadd, hmul, hhalt⟩
  exact ⟨_, step_of_fetch_error hr (State.fetch_illegal hpc hcount), rfl, rfl, rfl, rfl, rfl, rfl, rfl, rfl⟩

end Sys2Proof.Machine

namespace Sys2Proof

/-! #### What assembly lines emit -/

section
variable {env : List (String × Nat)} {p1 p2 p3 : AsmOperand} {ws : List Int}

/-- An add line emits the encoding of the Add of its operands' values, and nothing where one of them has none (R65). -/
theorem emit_add_eq_some_iff : emit env (.add p1 p2 p3) = some ws ↔
    ∃ a b d, p1.value env = some a ∧ p2.value env = some b ∧ p3.value env = some d ∧ encode (.add a b d) = ws := by
  simp [emit, Option.bind_eq_some_iff]

/-- A mul line emits the encoding of the Mul of its operands' values, and nothing where one of them has none (R65). -/
theorem emit_mul_eq_some_iff : emit env (.mul p1 p2 p3) = some ws ↔
    ∃ a b d, p1.value env = some a ∧ p2.value env = some b ∧ p3.value env = some d ∧ encode (.mul a b d) = ws := by
  simp [emit, Option.bind_eq_some_iff]

/-- A `.word` line emits its operand's value, and nothing where it has none (R65). -/
theorem emit_word_eq_some_iff : emit env (.word p1) = some ws ↔ ∃ a, p1.value env = some a ∧ [a] = ws := by
  simp [emit, Option.bind_eq_some_iff]

end

/-- Lines `x` and then lines `y` emit the words of `x` and then those of `y` (R65). -/
theorem emitAll_append {env : List (String × Nat)} {x y : List AsmLine} {xs ys : List Int}
    (hx : emitAll env x = some xs) (hy : emitAll env y = some ys) : emitAll env (x ++ y) = some (xs ++ ys) := by
  induction x generalizing xs with
  | nil =>
    cases hx
    exact hy
  | cons line rest ih =>
    obtain ⟨us, vs, hline, hrest, rfl⟩ := emitAll_cons_eq_some.1 hx
    rw [List.append_assoc]
    exact emitAll_cons_eq_some.2 ⟨us, vs ++ ys, hline, ih hrest, rfl⟩

/-- Where a sequence of lines emits words, each of its lines does. -/
theorem exists_emit_of_mem {env : List (String × Nat)} {lines : List AsmLine} {line : AsmLine} {ws : List Int}
    (hmem : line ∈ lines) (h : emitAll env lines = some ws) : ∃ xs, emit env line = some xs := by
  induction lines generalizing ws with
  | nil => cases hmem
  | cons first rest ih =>
    obtain ⟨us, vs, hfirst, hrest, -⟩ := emitAll_cons_eq_some.1 h
    rcases List.mem_cons.1 hmem with rfl | hmem
    · exact ⟨us, hfirst⟩
    · exact ih hmem hrest

/-- A label's first declaration gives it the number of words that the lines before it emit. -/
theorem label_value_of_first {env : List (String × Nat)} {before after : List AsmLine} {name : String} {ws : List Int}
    (hfirst : AsmLine.label name ∉ before) (h : emitAll env before = some ws) :
    (AsmOperand.label name).value (labels 0 (before ++ .label name :: after)) = some (ws.length : Int) := by
  simp [AsmOperand.value, labels_lookup_of_first hfirst, emitAll_length h]

/-- A program has an image exactly where all its lines emit words and each word fits in W bits (R65). -/
theorem assemble_eq_some_iff {w : Nat} {lines : List AsmLine} {ws : List Int} :
    assemble w lines = some ws ↔ emitAll (labels 0 lines) lines = some ws ∧ ∀ x ∈ ws, InWord w x := by
  simp only [assemble, Option.bind_eq_bind, Option.bind_eq_some_iff, Option.ite_none_right_eq_some, Option.some.injEq,
    List.all_eq_true, decide_eq_true_eq]
  constructor
  · rintro ⟨xs, hemit, hfit, rfl⟩
    exact ⟨hemit, hfit⟩
  · rintro ⟨hemit, hfit⟩
    exact ⟨ws, hemit, hfit, rfl⟩

/-- Settles O5. In a program that declares each label once, a declaration is its label's first. -/
theorem assemblyLinesEmitTheirWords : Obligations.AssemblyLinesEmitTheirWords := by
  refine ⟨fun env p1 p2 p3 a b d ha hb hd => ?operands, fun _ _ _ => ⟨rfl, rfl, rfl, rfl⟩,
    fun env line => ⟨rfl, ?single⟩, fun _ _ _ _ _ => emitAll_append, fun lines honce => ⟨?label, ?image⟩⟩
  case operands =>
    exact ⟨emit_add_eq_some_iff.2 ⟨a, b, d, ha, hb, hd, rfl⟩, rfl,
      emit_mul_eq_some_iff.2 ⟨a, b, d, ha, hb, hd, rfl⟩, rfl, emit_word_eq_some_iff.2 ⟨a, ha, rfl⟩⟩
  case single => simp [emitAll]
  case label =>
    rintro before after name ws rfl h
    have hfirst : AsmLine.label name ∉ before := by
      have hcount := honce name
      rw [List.count_append, List.count_cons_self] at hcount
      exact List.count_eq_zero.1 (by omega)
    exact label_value_of_first hfirst h
  case image =>
    intro w ws h
    refine ⟨fun hfit => assemble_eq_some_iff.2 ⟨h, hfit⟩, fun ⟨x, hx, hout⟩ => ?_⟩
    refine Option.eq_none_iff_forall_ne_some.2 fun us hus => ?_
    obtain ⟨hemit, hfit⟩ := assemble_eq_some_iff.1 hus
    cases h.symm.trans hemit
    exact hout (hfit x hx)

/-- Settles O53 (log 17). -/
theorem labelsOutsideTheRule : Obligations.LabelsOutsideTheRule := by
  refine ⟨fun before after name ws hfirst h => ?first, fun lines name hnot => ?undeclared,
    fun env p1 p2 p3 => ⟨fun hnone => ⟨?add, ?mul⟩, fun hnone => ?word⟩, fun lines line w hmem hnone => ?unassembled,
    fun _ _ _ => assemble_eq_some_iff⟩
  case first =>
    have hvalue := label_value_of_first (after := after) hfirst h
    exact ⟨hvalue, emit_word_eq_some_iff.2 ⟨_, hvalue, rfl⟩⟩
  case undeclared => simp [AsmOperand.value, labels_lookup_of_not_mem hnot]
  case add =>
    refine Option.eq_none_iff_forall_ne_some.2 fun ws hws => ?_
    obtain ⟨a, b, d, ha, hb, hd, -⟩ := emit_add_eq_some_iff.1 hws
    simp [ha, hb, hd] at hnone
  case mul =>
    refine Option.eq_none_iff_forall_ne_some.2 fun ws hws => ?_
    obtain ⟨a, b, d, ha, hb, hd, -⟩ := emit_mul_eq_some_iff.1 hws
    simp [ha, hb, hd] at hnone
  case word => simp [emit, hnone]
  case unassembled =>
    refine Option.eq_none_iff_forall_ne_some.2 fun ws hws => ?_
    obtain ⟨xs, hxs⟩ := exists_emit_of_mem hmem (assemble_eq_some_iff.1 hws).1
    exact absurd (hnone.symm.trans hxs) (by simp)

end Sys2Proof

/-! ### PROOFS for 40_cycle.md. When a block steps and what a step leaves of the pc and of memory; that the fault record is
no input of the step; and that every run ends, from START on and as the host drives it. -/

namespace Sys2Proof.Machine

/-! #### One step -/

/-- Settles O11. -/
theorem noStepUnlessRunning : Obligations.NoStepUnlessRunning := by
  intro s t hr h
  rw [(step_cases h).1] at hr
  exact absurd hr (by decide)

/-- The fetch at a pc at or beyond N (R69). -/
theorem State.fetch_opcode_outOfBounds {s : State} (hN : s.memLen ≤ s.pc) :
    s.fetch = .error (.boundsError (s.pc : Int) .fetchOpcode) := by
  have hout : ¬ s.inBounds (s.pc : Int) := mt State.inBounds_natCast.1 (by omega)
  rw [State.fetch, State.memRead_outOfBounds hout]

/-- Settles O13. -/
theorem opcodeFetchBeyondEndFails : Obligations.OpcodeFetchBeyondEndFails :=
  fun _ hr hN => step_of_fetch_error hr (State.fetch_opcode_outOfBounds hN)

/-- Settles O32: of the effects of a step, fault entry alone ends Failed. -/
theorem failedStepLeavesMemoryAndPc : Obligations.FailedStepLeavesMemoryAndPc := by
  intro s t h hf
  obtain ⟨hr, ⟨e, rfl⟩ | ⟨-, -, rfl⟩ | ⟨r, a, -, -, -, -, rfl⟩⟩ := step_effects h
  · exact ⟨rfl, rfl, rfl, e, rfl, rfl, rfl, rfl⟩
  · cases hf
  · cases hr.symm.trans hf

/-- Settles O16, by what a step and what a transaction can do to the state. -/
theorem onlyThreeThingsWritePc : Obligations.OnlyThreeThingsWritePc := by
  refine ⟨fun s t h => ?step, fun s tr => ?transact⟩
  case step =>
    obtain ⟨hr, ⟨e, rfl⟩ | ⟨-, -, rfl⟩ | ⟨r, a, -, -, -, hop, rfl⟩⟩ := step_effects h
    · exact .inr ⟨by simp, rfl⟩
    · exact .inr ⟨by simp, rfl⟩
    · exact .inl ⟨hr, hop, rfl⟩
  case transact =>
    rcases transact_state_cases tr s with h | ⟨htr, h⟩ | ⟨image, htr, -, -, h⟩ |
      ⟨noun, verb, -, -, ⟨-, h⟩ | ⟨-, h⟩ | ⟨-, h⟩⟩ | ⟨-, -, h⟩
    case inr.inl => exact .inr ⟨by simp [h], .inl htr⟩
    case inr.inr.inl => exact .inr ⟨by simp [h], .inr ⟨image, htr⟩⟩
    all_goals exact .inl (by simp [h])

/-! #### The fault record is no input of the step (R80) -/

/-- `s` with the fault record of `r`. -/
def State.withRecordOf (s r : State) : State :=
  { s with faultCause := r.faultCause, faultAccess := r.faultAccess, faultValue := r.faultValue, faultPc := r.faultPc }

/-- States that agree on everything but the fault record differ by the record alone. -/
theorem State.eq_withRecordOf {s s' : State} (hc : s'.cfg = s.cfg) (hN : s'.memLen = s.memLen) (hM : s'.mem = s.mem)
    (hp : s'.pc = s.pc) (hr : s'.rs = s.rs) : s' = s.withRecordOf s' := by
  rw [State.withRecordOf, ← hc, ← hN, ← hM, ← hp, ← hr]

/-- A fetch does not look at the fault record. -/
theorem State.fetch_withRecordOf (s r : State) : (s.withRecordOf r).fetch = s.fetch := State.fetch_congr rfl rfl rfl

/-- Another record before an Add or a Mul is either overwritten by its fault or still there when it completes. -/
theorem execArith_withRecordOf {k : AluKind} {p1 p2 p3 : Int} {s t : State} (r : State)
    (h : execArith k p1 p2 p3 s = .next t) :
    execArith k p1 p2 p3 (s.withRecordOf r) = .next t ∨
    (execArith k p1 p2 p3 (s.withRecordOf r) = .next (t.withRecordOf r) ∧ t.rs = s.rs) := by
  rcases execArith_cases h with ⟨h1, rfl⟩ | ⟨h1, h2, rfl⟩ | ⟨h1, h2, hm, hw, rfl⟩ | ⟨v, h1, h2, hv, h3, rfl⟩ |
    ⟨v, h1, h2, hv, h3, rfl⟩
  · exact .inl (execArith_of_p1_outOfBounds h1)
  · exact .inl (execArith_of_p2_outOfBounds h1 h2)
  · exact .inl (execArith_of_alu_error h1 h2 (alu_checked_overflow hm hw))
  · exact .inl (execArith_of_p3_outOfBounds h1 h2 hv h3)
  · exact .inr ⟨execArith_of_ok h1 h2 h3 hv, rfl⟩

/-- Another record before a step is either overwritten by fault entry or still there after a step that does not fail. -/
theorem step_withRecordOf {s t : State} (r : State) (h : step s = .next t) :
    step (s.withRecordOf r) = .next t ∨ (step (s.withRecordOf r) = .next (t.withRecordOf r) ∧ t.rs ≠ .failed) := by
  obtain ⟨hr, ⟨e, he, rfl⟩ | ⟨i, hi, hexec⟩⟩ := step_cases h
  · exact .inl (step_of_fetch_error hr ((s.fetch_withRecordOf r).trans he))
  · have hr' : (s.withRecordOf r).rs = .running := hr
    rw [step_of_fetch_ok hr' ((s.fetch_withRecordOf r).trans hi)]
    have hne : t.rs = s.rs → t.rs ≠ .failed := fun hrt => by simp [hrt, hr]
    cases i with
    | add p1 p2 p3 => exact (execArith_withRecordOf r hexec).imp_right (And.imp_right hne)
    | mul p1 p2 p3 => exact (execArith_withRecordOf r hexec).imp_right (And.imp_right hne)
    | halt =>
      cases hexec
      exact .inr ⟨rfl, by simp⟩

/-- Settles O15: the two blocks differ by their fault records alone. -/
theorem stepDependsOnMemoryAndPcAlone : Obligations.StepDependsOnMemoryAndPcAlone := by
  intro s s' hr hr' hc hN hM hp
  obtain ⟨t, h⟩ := step_next hr
  rw [State.eq_withRecordOf hc hN hM hp (hr'.trans hr.symm)]
  rcases step_withRecordOf s' h with h' | ⟨h', hne⟩
  · exact ⟨t, t, h, h', rfl, rfl, rfl, rfl, rfl, fun _ => rfl⟩
  · exact ⟨t, t.withRecordOf s', h, h', rfl, rfl, rfl, rfl, rfl, fun hf => absurd hf hne⟩

/-! #### Every run ends (R81) -/

theorem BlockError.cause_ne_none (e : BlockError) : e.cause ≠ .none := by
  cases e <;> simp [BlockError.cause]

/-- After fault entry the host gets the fault record (R122). -/
theorem State.raise_endsWith (s : State) (e : BlockError) : (s.raise e).EndsWith (s.raise e).runResult :=
  .inr ⟨rfl, e.cause_ne_none, State.runResult_failed rfl⟩

/-- A state that gives the host its word 0 or its fault record has ended. -/
theorem State.EndsWith.ended {s : State} {r : RunResult} (h : s.EndsWith r) : s.Ended := h.imp And.left And.left

/-- A step goes on to the next instruction, which begins at most at N, or ends the run with something for the host to
read. -/
theorem step_advances_or_ends {s t : State} (h : step s = .next t) :
    (t.rs = .running ∧ t.pc = s.pc + 4 ∧ t.memLen = s.memLen ∧ t.pc ≤ t.memLen) ∨ t.EndsWith t.runResult := by
  obtain ⟨hr, ⟨e, rfl⟩ | ⟨hpc, -, rfl⟩ | ⟨r, a, -, -, hN, -, rfl⟩⟩ := step_effects h
  · exact .inr (s.raise_endsWith e)
  · have hpos : 0 < s.memLen := by omega
    exact .inr (.inl ⟨rfl, hpos, State.runResult_halted rfl hpos⟩)
  · exact .inl ⟨hr, rfl, rfl, hN⟩

/-- A Running block whose pc is `n` instructions or fewer from N ends within `n + 1` steps. -/
theorem core_run_ends (n : Nat) {s : State} (hr : s.rs = .running) (hn : s.memLen ≤ s.pc + 4 * n) :
    ∃ (k : Nat) (t : State), k ≤ n + 1 ∧ core.run k s = .next t ∧ t.EndsWith t.runResult := by
  induction n generalizing s with
  | zero =>
    have hstep := step_of_fetch_error hr (State.fetch_opcode_outOfBounds hn)
    exact ⟨1, _, le_refl _, core_run_of_next hstep 0, s.raise_endsWith _⟩
  | succ n ih =>
    obtain ⟨t, hstep⟩ := step_next hr
    rcases step_advances_or_ends hstep with ⟨hrt, hpc, hlen, -⟩ | hend
    · obtain ⟨k, u, hk, hrun, hend⟩ := ih hrt (by omega)
      exact ⟨k + 1, u, by omega, (core_run_of_next hstep k).trans hrun, hend⟩
    · exact ⟨1, t, by omega, core_run_of_next hstep 0, hend⟩

/-- A block that is Running after some steps was Running before them (R82). -/
theorem running_of_core_run {k : Nat} {s t : State} (h : core.run k s = .next t) (hrt : t.rs = .running) :
    s.rs = .running := by
  cases k with
  | zero =>
    cases h
    exact hrt
  | succ k =>
    by_contra hr
    rw [core_run_of_not_running hr] at h
    cases h

/-- A block still Running after `k` steps has advanced its pc by 4 at each and stands at most at N. -/
theorem core_run_running {k : Nat} {s t : State} (h : core.run k s = .next t) (hrt : t.rs = .running)
    (hpc : s.pc ≤ s.memLen) : t.pc = s.pc + 4 * k ∧ t.memLen = s.memLen ∧ t.pc ≤ t.memLen := by
  induction k generalizing s with
  | zero =>
    cases h
    exact ⟨rfl, rfl, hpc⟩
  | succ k ih =>
    obtain ⟨u, hstep⟩ := step_next (running_of_core_run h hrt)
    rw [core_run_of_next hstep] at h
    rcases step_advances_or_ends hstep with ⟨-, hpu, hlen, hle⟩ | hend
    · obtain ⟨hpt, hlt, hle⟩ := ih h hle
      exact ⟨by omega, hlt.trans hlen, hle⟩
    · exact absurd (running_of_core_run h hrt) hend.ended.not_idle_not_running.2

/-- Settles O17: the pc of step `k` is `4k`, and no further than N while the block is Running. -/
theorem everyStartedRunEnds : Obligations.EveryStartedRunEnds := by
  intro s hr hpc
  refine ⟨?ends, fun k t h hrt => ?running⟩
  case ends =>
    obtain ⟨k, t, hk, hrun, hend⟩ := core_run_ends ((s.memLen + 3) / 4) hr (by omega)
    exact ⟨k, t, hk, hrun, hend.ended⟩
  case running =>
    obtain ⟨hpt, hlen, hle⟩ := core_run_running h hrt (by omega)
    exact ⟨by omega, by omega, by omega, opcodeFetchBeyondEndFails t hrt⟩

/-! #### The host's run (R121, R122) -/

/-- A block that stops within the fuel is left in the state it stopped in. -/
theorem State.runFor_of_core_run {k fuel : Nat} {s t : State} (h : core.run k s = .next t) (hend : t.Ended)
    (hk : k ≤ fuel) : s.runFor fuel = t := by
  induction k generalizing s fuel with
  | zero =>
    cases h
    exact State.runFor_of_not_running hend.not_idle_not_running.2 fuel
  | succ k ih =>
    by_cases hr : s.rs = .running
    · obtain ⟨u, hstep⟩ := step_next hr
      obtain ⟨fuel, rfl⟩ : ∃ m, fuel = m + 1 := ⟨fuel - 1, by omega⟩
      rw [core_run_of_next hstep] at h
      rw [State.runFor_of_next hstep]
      exact ih h (by omega)
    · rw [core_run_of_not_running hr] at h
      cases h

/-- A block started at address 0 and left to itself ends with something for the host to read. -/
theorem State.startAndRun_ends {s : State} (hr : s.rs = .idle) (hpc : s.pc = 0) :
    ∃ u, transact .start s = (.ok, u) ∧ (u.runFor u.stepBound).EndsWith s.startAndRun := by
  have hstart : transact .start s = (.ok, s.setRunState .running) := if_pos hr
  refine ⟨_, hstart, ?_⟩
  obtain ⟨k, t, hk, hrun, hend⟩ := core_run_ends ((s.memLen + 3) / 4) (s.setRunState_rs .running)
    (by rw [State.setRunState_memLen, State.setRunState_pc]; omega)
  have hleft : (s.setRunState .running).runFor (s.setRunState .running).stepBound = t :=
    State.runFor_of_core_run hrun hend.ended hk
  simp only [State.startAndRun, hstart]
  rwa [hleft]

/-- Settles O52: LOAD leaves an Idle block at pc 0, a SEED that responds OK keeps it so, and a SEED that responds BOUNDS
is fault entry. -/
theorem driverRunAlwaysEnds : Obligations.DriverRunAlwaysEnds := by
  intro s image hr hfit
  have hload : transact (.load image) s = (.ok, s.loaded image) := by
    rcases doLoad_cases image s with ⟨hrun, -⟩ | ⟨-, hlong, -⟩ | ⟨-, -, h⟩
    · exact absurd hrun hr
    · omega
    · exact h
  refine ⟨s.loaded image, hload, ?unseeded, fun noun verb => ?seeded⟩
  case unseeded => simpa only [driverRun, hload] using State.startAndRun_ends (s := s.loaded image) rfl rfl
  case seeded =>
    simp only [driverRun, hload]
    rcases doSeed_cases noun verb (s.loaded image) with ⟨hidle, -⟩ | ⟨-, -, h⟩ | ⟨-, -, h⟩ | ⟨-, -, h⟩
    · exact absurd rfl hidle
    · exact .inr ⟨_, h, rfl, by simpa only [transact, h] using State.raise_endsWith _ _⟩
    · exact .inr ⟨_, h, rfl, by simpa only [transact, h] using State.raise_endsWith _ _⟩
    · obtain ⟨u, hstart, hend⟩ := State.startAndRun_ends
        (s := (s.loaded image).setMem (((s.loaded image).mem.write 1 noun).write 2 verb)) rfl rfl
      exact .inl ⟨_, u, h, hstart, by simpa only [transact, h] using hend⟩

end Sys2Proof.Machine

/-! ### PROOFS for 41_arithmetic.md. Add and Mul, whole and where they complete, as one meaning over the kind of the ALU; and
the laws of their results under WRAP. -/

namespace Sys2Proof.Machine

/-! #### Add and Mul, whole (R84, R85) -/

theorem State.not_inBounds_iff {s : State} {addr : Int} : ¬ s.inBounds addr ↔ addr < 0 ∨ (s.memLen : Int) ≤ addr := by
  simp only [State.inBounds]
  omega

/-- The ALU, whole (R83). -/
theorem alu_eq_ite (c : Config) (k : AluKind) (a b : Int) :
    alu c k a b =
      if c.overflowMode = .checked ∧ ¬ InWord c.wordBits (k.exact a b) then .error (.overflowError k.opcode)
      else .ok (if c.overflowMode = .wrap then wrapWord c.wordBits (k.exact a b) else k.exact a b) := by
  cases hm : c.overflowMode with
  | wrap => rw [alu_wrap hm, if_neg (by simp), if_pos rfl]
  | checked =>
    by_cases hfit : InWord c.wordBits (k.exact a b)
    · rw [alu_checked_fits hm hfit, if_neg (fun h => h.2 hfit), if_neg (by decide)]
    · rw [alu_checked_overflow hm hfit, if_pos ⟨rfl, hfit⟩]

/-- An Add or a Mul after its fetch, whole: its four faults in order, and the write and the advance. -/
theorem execArith_eq_ite (k : AluKind) (p1 p2 p3 : Int) (s : State) :
    execArith k p1 p2 p3 s =
      let exact := k.exact (s.mem.read p1.toNat) (s.mem.read p2.toNat)
      if p1 < 0 ∨ (s.memLen : Int) ≤ p1 then .next (s.raise (.boundsError p1 .readOperandA))
      else if p2 < 0 ∨ (s.memLen : Int) ≤ p2 then .next (s.raise (.boundsError p2 .readOperandB))
      else if s.cfg.overflowMode = .checked ∧ ¬ InWord s.cfg.wordBits exact then
        .next (s.raise (.overflowError k.opcode))
      else if p3 < 0 ∨ (s.memLen : Int) ≤ p3 then .next (s.raise (.boundsError p3 .writeResult))
      else .next (s.setMem (s.mem.write p3.toNat
        (if s.cfg.overflowMode = .wrap then wrapWord s.cfg.wordBits exact else exact))).advancePc := by
  have halu := alu_eq_ite s.cfg k (s.mem.read p1.toNat) (s.mem.read p2.toNat)
  simp only [← State.not_inBounds_iff]
  by_cases h1 : s.inBounds p1
  swap
  · rw [if_pos h1, execArith_of_p1_outOfBounds h1]
  by_cases h2 : s.inBounds p2
  swap
  · rw [if_neg (not_not.2 h1), if_pos h2, execArith_of_p2_outOfBounds h1 h2]
  rw [if_neg (not_not.2 h1), if_neg (not_not.2 h2)]
  by_cases herr : s.cfg.overflowMode = .checked ∧
      ¬ InWord s.cfg.wordBits (k.exact (s.mem.read p1.toNat) (s.mem.read p2.toNat))
  · rw [if_pos herr] at halu ⊢
    exact execArith_of_alu_error h1 h2 halu
  rw [if_neg herr] at halu ⊢
  by_cases h3 : s.inBounds p3
  · rw [if_neg (not_not.2 h3), execArith_of_ok h1 h2 h3 halu]
  · rw [if_pos h3, execArith_of_p3_outOfBounds h1 h2 halu h3]

/-- The step at an Add or a Mul: the first operand word out of bounds fails, else the instruction is executed (R71). -/
theorem step_arith_eq_ite {s : State} {k : AluKind} (hr : s.rs = .running) (hpc : s.pc < s.memLen)
    (hop : s.mem.read s.pc = k.opcode) :
    step s =
      if s.memLen ≤ s.pc + 1 then .next (s.raise (.boundsError ((s.pc : Int) + 1) .fetchOperandAddr))
      else if s.memLen ≤ s.pc + 2 then .next (s.raise (.boundsError ((s.pc : Int) + 2) .fetchOperandAddr))
      else if s.memLen ≤ s.pc + 3 then .next (s.raise (.boundsError ((s.pc : Int) + 3) .fetchOperandAddr))
      else execArith k (s.mem.read (s.pc + 1)) (s.mem.read (s.pc + 2)) (s.mem.read (s.pc + 3)) s := by
  have hop' : s.mem.read s.pc = 1 ∨ s.mem.read s.pc = 2 := hop ▸ k.opcode_eq
  have beyond := operandFetchBeyondEndFails s
  split_ifs with h1 h2 h3
  · exact beyond 1 hr hop' (by omega) (by omega) h1 (by omega)
  · exact beyond 2 hr hop' (by omega) (by omega) h2 (by omega)
  · exact beyond 3 hr hop' (by omega) (by omega) h3 (by omega)
  · exact step_of_arith hr (by omega) hop

/-- Settles O18. -/
theorem addFollowsItsRule : Obligations.AddFollowsItsRule := by
  rintro s p1 p2 p3 a b hr hpc hop rfl rfl rfl rfl rfl
  rw [step_arith_eq_ite (k := .add) hr hpc hop, execArith_eq_ite]
  rfl

/-- Settles O19. -/
theorem mulFollowsItsRule : Obligations.MulFollowsItsRule := by
  rintro s p1 p2 p3 a b hr hpc hop rfl rfl rfl rfl rfl
  rw [step_arith_eq_ite (k := .mul) hr hpc hop, execArith_eq_ite]
  rfl

/-! #### Add and Mul where they complete (R76, R77) -/

theorem one_le_wordBits {c : Config} (hc : c.Legal) : 1 ≤ c.wordBits := le_trans (by decide) hc.1

/-- A result that the overflow mode admits is the wrapped one in either mode: a word wraps to itself. -/
theorem alu_of_admitted {c : Config} (hw : 1 ≤ c.wordBits) {k : AluKind} {a b : Int}
    (h : c.overflowMode = .wrap ∨ InWord c.wordBits (k.exact a b)) :
    alu c k a b = .ok (wrapWord c.wordBits (k.exact a b)) := by
  cases hm : c.overflowMode with
  | wrap => exact alu_wrap hm k a b
  | checked =>
    have hfit : InWord c.wordBits (k.exact a b) := h.resolve_left (by simp [hm])
    rw [alu_checked_fits hm hfit, wrapWord_of_inWord hw hfit]

/-- An Add or a Mul with its addresses in bounds and its result admitted: the result at p3, the pc advanced, and nothing else
changed. -/
theorem execArith_completes {s : State} {k : AluKind} {p1 p2 p3 a b : Int} (hc : s.cfg.Legal) (hwf : s.mem.wf)
    (h1 : s.inBounds p1) (h2 : s.inBounds p2) (h3 : s.inBounds p3)
    (ha : s.mem.read p1.toNat = a) (hb : s.mem.read p2.toNat = b)
    (hadm : s.cfg.overflowMode = .wrap ∨ InWord s.cfg.wordBits (k.exact a b)) :
    ∃ t, execArith k p1 p2 p3 s = .next t ∧
      t.mem.read p3.toNat = wrapWord s.cfg.wordBits (k.exact a b) ∧
      (InWord s.cfg.wordBits (k.exact a b) → t.mem.read p3.toNat = k.exact a b) ∧
      (∀ x : Nat, (x : Int) ≠ p3 → t.mem.read x = s.mem.read x) ∧
      t = { s with mem := t.mem, pc := s.pc + 4 } := by
  subst ha hb
  have hw : 1 ≤ s.cfg.wordBits := one_le_wordBits hc
  have hread := Memory.read_write_same s.mem hwf p3.toNat
  have hother : ∀ x : Nat, (x : Int) ≠ p3 → x ≠ p3.toNat := by
    have := h3.1
    omega
  exact ⟨_, execArith_of_ok h1 h2 h3 (alu_of_admitted hw hadm), hread _,
    fun hfit => (hread _).trans (wrapWord_of_inWord hw hfit),
    fun x hx => Memory.read_write_other _ _ _ _ (hother x hx), rfl⟩

/-- Settles O20. -/
theorem addCompletes : Obligations.AddCompletes :=
  fun _ _ _ _ _ _ => execArith_completes (k := .add)

/-- Settles O21. -/
theorem mulCompletes : Obligations.MulCompletes :=
  fun _ _ _ _ _ _ => execArith_completes (k := .mul)

/-- Under CHECKED a result that is a word is stored exactly, whatever the width (R88). -/
theorem execArith_checked_stores_exact {s : State} {k : AluKind} {p1 p2 p3 : Int}
    (hm : s.cfg.overflowMode = .checked) (hwf : s.mem.wf)
    (h1 : s.inBounds p1) (h2 : s.inBounds p2) (h3 : s.inBounds p3)
    (hfit : InWord s.cfg.wordBits (k.exact (s.mem.read p1.toNat) (s.mem.read p2.toNat))) :
    ∃ t, execArith k p1 p2 p3 s = .next t ∧ t.rs = s.rs ∧
      t.mem.read p3.toNat = k.exact (s.mem.read p1.toNat) (s.mem.read p2.toNat) :=
  ⟨_, execArith_of_ok h1 h2 h3 (alu_checked_fits hm hfit), rfl, Memory.read_write_same _ hwf _ _⟩

/-- Settles O23. The overflow is the third fault in the order of O33, whatever p3. -/
theorem checkedOverflowFaults : Obligations.CheckedOverflowFaults := by
  intro s i op p1 p2 p3 exact hm hwf h1 h2 hi
  refine ⟨fun hover => ?overflow, fun hfit h3 => ?fits⟩
  case overflow =>
    obtain ⟨-, -, overflow, -⟩ := firstFaultIsReported s i op p1 p2 p3 exact hi
    exact ⟨_, overflow h1 h2 hm hover, rfl, rfl, rfl, rfl⟩
  case fits =>
    rcases hi with ⟨rfl, -, rfl⟩ | ⟨rfl, -, rfl⟩
    · exact execArith_checked_stores_exact (k := .add) hm hwf h1 h2 h3 hfit
    · exact execArith_checked_stores_exact (k := .mul) hm hwf h1 h2 h3 hfit

/-! #### Wrapped results (R86, R87) -/

/-- Exactly the words wrap to themselves. -/
theorem wrapWord_eq_self_iff {w : Nat} (hw : 1 ≤ w) {v : Int} : wrapWord w v = v ↔ InWord w v :=
  ⟨fun h => h ▸ wrapWord_inWord hw v, wrapWord_of_inWord hw⟩

/-- A value and its wrapped value have one W-bit pattern. -/
@[simp] theorem patternOfWord_wrapWord (w : Nat) (v : Int) : patternOfWord w (wrapWord w v) = patternOfWord w v := by
  rw [← wordOfPattern_patternOfWord_eq_wrapWord, patternOfWord_wordOfPattern]

/-- Wrapping an addend first does not change a wrapped sum. -/
@[simp] theorem wrapWord_wrapWord_add (w : Nat) (u v : Int) : wrapWord w (wrapWord w u + v) = wrapWord w (u + v) :=
  Int.bmod_add_bmod

@[simp] theorem wrapWord_add_wrapWord (w : Nat) (u v : Int) : wrapWord w (u + wrapWord w v) = wrapWord w (u + v) :=
  Int.add_bmod_bmod

/-- A value wraps to the word it is congruent to modulo `2^W` (R10). -/
theorem wrapWord_eq_of_congr {w : Nat} (hw : 1 ≤ w) {v r : Int} (hr : InWord w r) (h : (2 : Int) ^ w ∣ v - r) :
    wrapWord w v = r := (wrapWord_congr h).trans (wrapWord_of_inWord hw hr)

/-- `2^W` is the number of words, half of them negative. -/
theorem two_pow_eq_words {w : Nat} (hw : 1 ≤ w) : (2 : Int) ^ w = -2 * minWord w ∧ maxWord w = -minWord w - 1 := by
  have h2 : (2 : Int) ^ w = 2 * (2 ^ (w - 1) : Nat) := by exact_mod_cast two_pow_pred hw
  simp only [minWord, maxWord]
  omega

/-- A sum of two words overflows exactly where they have one sign and the wrapped sum the other (R86). -/
theorem add_overflows_iff {w : Nat} (hw : 1 ≤ w) {a b : Int} (ha : InWord w a) (hb : InWord w b) :
    ¬ InWord w (a + b) ↔
      (0 ≤ a ∧ 0 ≤ b ∧ wrapWord w (a + b) < 0) ∨ (a < 0 ∧ b < 0 ∧ 0 ≤ wrapWord w (a + b)) := by
  obtain ⟨hpow, hmax⟩ := two_pow_eq_words hw
  obtain ⟨ha1, ha2⟩ := ha
  obtain ⟨hb1, hb2⟩ := hb
  rcases lt_or_ge (maxWord w) (a + b) with habove | hle
  · have hwrap : wrapWord w (a + b) = a + b - 2 ^ w := wrapWord_eq_of_congr hw ⟨by omega, by omega⟩ (by simp)
    omega
  rcases lt_or_ge (a + b) (minWord w) with hbelow | hge
  · have hwrap : wrapWord w (a + b) = a + b + 2 ^ w := wrapWord_eq_of_congr hw ⟨by omega, by omega⟩ (by simp)
    omega
  · have hwrap : wrapWord w (a + b) = a + b := wrapWord_of_inWord hw ⟨hge, hle⟩
    omega

/-- Settles O26. -/
theorem wrappedAddLaws : Obligations.WrappedAddLaws := by
  intro c a b d hc hm ha hb _
  have hw : 1 ≤ c.wordBits := one_le_wordBits hc
  have halu : ∀ x y, alu c .add x y = .ok (wrapWord c.wordBits (x + y)) := alu_wrap hm .add
  refine ⟨_, _, _, halu a b, rfl, wrapWord_eq_self_iff hw, add_overflows_iff hw ha hb, ?comm, halu a b, halu b d,
    ?assoc, ?pattern⟩
  case comm => rw [halu, add_comm]
  case assoc => rw [halu, halu, wrapWord_wrapWord_add, wrapWord_add_wrapWord, add_assoc]
  case pattern => rw [patternOfWord_wrapWord]; exact BitVec.ofInt_add a b

/-- The negative of a word is a word, except for the least one's (R87). -/
theorem neg_inWord_iff {w : Nat} (hw : 1 ≤ w) {a : Int} (ha : InWord w a) : InWord w (-a) ↔ a ≠ minWord w := by
  obtain ⟨-, hmax⟩ := two_pow_eq_words hw
  obtain ⟨h1, h2⟩ := ha
  simp only [InWord]
  omega

/-- The negative of the least word wraps to it (R87). -/
theorem wrapWord_neg_minWord {w : Nat} (hw : 1 ≤ w) : wrapWord w (-minWord w) = minWord w := by
  obtain ⟨hpow, -⟩ := two_pow_eq_words hw
  have hmin : InWord w (minWord w) := ⟨le_rfl, (inWord_zero w).1.trans (inWord_zero w).2⟩
  have hdiff : -minWord w - minWord w = 2 ^ w := by omega
  exact wrapWord_eq_of_congr hw hmin (dvd_of_eq hdiff.symm)

/-- A product is the product of the signs times the product of the magnitudes. -/
theorem sign_mul_sign_mul_natAbs (a b : Int) : a.sign * b.sign * (a.natAbs * b.natAbs) = a * b := by
  rw [mul_mul_mul_comm, Int.sign_mul_natAbs, Int.sign_mul_natAbs]

/-- Settles O27. -/
theorem wrappedMulLaws : Obligations.WrappedMulLaws := by
  intro c a b hc hm ha _
  have hw : 1 ≤ c.wordBits := one_le_wordBits hc
  have halu : ∀ x y, alu c .mul x y = .ok (wrapWord c.wordBits (x * y)) := alu_wrap hm .mul
  have hneg : alu c .mul a (-1) = .ok (wrapWord c.wordBits (-a)) := by rw [halu, mul_neg_one]
  refine ⟨_, _, halu a b, rfl, ?pattern, ?comm, ?signs, hneg, ?negative, ?least⟩
  case pattern => rw [patternOfWord_wrapWord]; exact BitVec.ofInt_mul a b
  case comm => rw [halu, mul_comm]
  case signs => rw [sign_mul_sign_mul_natAbs]
  case negative => rw [wrapWord_eq_self_iff hw, neg_inWord_iff hw ha]
  case least => exact fun hmin => hmin ▸ wrapWord_neg_minWord hw

end Sys2Proof.Machine

/-! ### PROOFS for 42_halt.md. The step at a Halt word, the one step that ends Halted, and the READ of word 0 after it. -/

namespace Sys2Proof.Machine

/-- READ of an address in bounds, outside Running, responds with its word (R118). -/
theorem transact_read_inBounds {s : State} {addr : Int} (hr : s.rs ≠ .running) (hb : s.inBounds addr) :
    transact (.read addr) s = (.okWord (s.mem.read addr.toNat), s) := by
  rw [transact, doRead, if_neg hr, if_pos hb]

/-- The step at a Halt word in bounds, whatever the words after it (R61, R90). -/
theorem step_of_halt {s : State} (hr : s.rs = .running) (hpc : s.pc < s.memLen) (hop : s.mem.read s.pc = haltCode) :
    step s = .next (s.setRunState .halted) := by
  rw [step_of_fetch_ok hr (State.fetch_halt hpc hop), exec_halt]

/-- Only the step at a Halt word in bounds ends Halted: fault entry ends Failed, and an Add or a Mul stays Running. -/
theorem step_halted {s t : State} (h : step s = .next t) (ht : t.rs = .halted) :
    s.pc < s.memLen ∧ s.mem.read s.pc = haltCode ∧ t = s.setRunState .halted := by
  obtain ⟨hr, ⟨e, rfl⟩ | hhalt | ⟨r, a, -, -, -, -, rfl⟩⟩ := step_effects h
  · cases ht
  · exact hhalt
  · cases hr.symm.trans ht

/-- Settles O28. -/
theorem haltFollowsItsRule : Obligations.HaltFollowsItsRule :=
  fun _ => step_of_halt

/-- Settles O29. -/
theorem haltCompletes : Obligations.HaltCompletes :=
  fun s => ⟨s.setRunState .halted, exec_halt s, s.setRunState_mem .halted, rfl⟩

/-- Settles O30: the Halt word itself stands in memory, so N is at least 1 and address 0 is in bounds. -/
theorem resultIsWordZeroAfterHalt : Obligations.ResultIsWordZeroAfterHalt := by
  intro s t h ht
  obtain ⟨hpc, -, rfl⟩ := step_halted h ht
  have hpos : 0 < s.memLen := by omega
  have hzero : (s.setRunState .halted).inBounds 0 := State.inBounds_natCast.2 hpos
  exact ⟨hpos, rfl, transact_read_inBounds (by simp) hzero⟩

end Sys2Proof.Machine

/-! ### PROOFS for 60_exceptions.md. What fault entry writes, and when the fault is an OverflowError. -/

namespace Sys2Proof.Machine

/-- Settles O31. -/
theorem faultEntryWritesTheRecord : Obligations.FaultEntryWritesTheRecord :=
  fun _ _ _ _ => ⟨rfl, rfl, rfl⟩

/-- The fetch raises BoundsError and DecodeError only (R95, R96). -/
theorem State.fetch_error_cause_ne_overflow {s : State} {e : BlockError} (h : s.fetch = .error e) :
    e.cause ≠ .overflow := by
  rcases s.fetch_cases with ⟨-, hf⟩ | ⟨-, -, hf⟩ | ⟨-, -, hf⟩ | ⟨-, -, -, hf⟩ | ⟨-, -, hf⟩ | ⟨-, -, hf⟩ <;>
    rw [hf] at h <;> cases h
  all_goals exact nofun

/-- Of the faults of an Add or a Mul, the ALU's alone has cause OVERFLOW: under CHECKED, out of range, with the opcode
(R83, R97). -/
theorem execArith_overflow {k : AluKind} {p1 p2 p3 : Int} {s t : State} (h : execArith k p1 p2 p3 s = .next t)
    (hr : s.rs = .running) (hf : t.rs = .failed) (hc : t.faultCause = .overflow) :
    s.cfg.overflowMode = .checked ∧ t.faultValue = k.opcode ∧
      ¬ InWord s.cfg.wordBits (k.exact (s.mem.read p1.toNat) (s.mem.read p2.toNat)) := by
  rcases execArith_cases h with ⟨-, rfl⟩ | ⟨-, -, rfl⟩ | ⟨-, -, hm, hout, rfl⟩ | ⟨-, -, -, -, -, rfl⟩ |
    ⟨r, -, -, -, -, rfl⟩
  · cases hc
  · cases hc
  · exact ⟨hm, rfl, hout⟩
  · cases hc
  · cases hr.symm.trans hf

/-- Settles O24: a fetch raises no OverflowError and a Halt does not fail, so the step executed the Add or the Mul
at the pc. -/
theorem overflowErrorOnlyUnderChecked : Obligations.OverflowErrorOnlyUnderChecked := by
  intro s t h hf hc
  obtain ⟨hr, ⟨e, he, rfl⟩ | ⟨i, hi, hexec⟩⟩ := step_cases h
  · exact absurd hc (State.fetch_error_cause_ne_overflow he)
  · rcases s.fetch_cases with ⟨-, hfetch⟩ | ⟨-, -, hfetch⟩ | ⟨-, -, hfetch⟩ | ⟨-, -, -, hfetch⟩ |
      ⟨-, hop, hfetch⟩ | ⟨-, hop, hfetch⟩ <;>
      rw [hfetch] at hi <;> cases hi
    · cases hexec
      cases hf
    · obtain ⟨hm, hval, hout⟩ := execArith_overflow (k := .add) hexec hr hf hc
      exact ⟨hm, hval.trans hop.symm, _, _, rfl, rfl, .inl ⟨hop, hout⟩⟩
    · obtain ⟨hm, hval, hout⟩ := execArith_overflow (k := .mul) hexec hr hf hc
      exact ⟨hm, hval.trans hop.symm, _, _, rfl, rfl, .inr ⟨hop, hout⟩⟩

end Sys2Proof.Machine

/-! ### PROOFS for 70_reset_and_hazards.md. Each host transaction where it is admitted and where it is not; and what a run
depends on. -/

namespace Sys2Proof.Machine

/-- The run states that admit LOAD and READ are all but Running (R114, R118). -/
theorem RunState.ne_running_iff {r : RunState} : r ≠ .running ↔ r = .idle ∨ r = .halted ∨ r = .failed := by
  cases r <;> simp

/-! #### LOAD (R114) -/

/-- LOAD outside Running of an image beyond MEM_DEPTH (R114). -/
theorem transact_load_tooLong {s : State} {image : List Int} (hr : s.rs ≠ .running)
    (hlong : s.cfg.memDepth < image.length) : transact (.load image) s = (.tooLong, s) := by
  rw [transact, doLoad, if_neg hr, if_pos hlong]

/-- LOAD outside Running of an image that fits (R114). -/
theorem transact_load_fits {s : State} {image : List Int} (hr : s.rs ≠ .running)
    (hfit : image.length ≤ s.cfg.memDepth) : transact (.load image) s = (.ok, s.loaded image) := by
  rw [transact, doLoad, if_neg hr, if_neg (Nat.not_lt.2 hfit)]

/-- A word of a loaded memory is the image's word (R114). -/
theorem State.loaded_read (s : State) {image : List Int} {i : Nat} (hi : i < image.length) :
    (s.loaded image).mem.read i = image[i] := by
  have h := Memory.read_ofWords 0 image i
  rwa [Nat.zero_add, List.getD_eq_getElem _ _ hi] at h

/-- A loaded memory is the image, word for word (R114). -/
@[simp] theorem State.loaded_words (s : State) (image : List Int) : (s.loaded image).words = image := by
  refine List.ext_getElem (by simp [State.words]) fun i _ hi => ?_
  simpa [State.words] using s.loaded_read hi

/-- Settles O37. -/
theorem loadBeginsANewRun : Obligations.LoadBeginsANewRun := by
  intro s image hadmit
  have hr := RunState.ne_running_iff.2 hadmit
  refine ⟨transact_load_tooLong hr, fun hfit => ⟨s.loaded image, transact_load_fits hr hfit, rfl, fun i hi => ?word,
    s.loaded_words image, rfl, rfl, rfl, rfl, rfl, rfl⟩⟩
  case word => rw [s.loaded_read hi, List.getElem?_eq_getElem hi]

/-! #### SEED (R115) -/

/-- The pc is 0 in Idle (R117). -/
theorem State.Inv.pc_eq_zero {s : State} (hs : s.Inv) (hr : s.rs = .idle) : s.pc = 0 := by
  obtain ⟨-, -, hpc⟩ := hs.pc
  exact hpc hr

/-- The memory a completed SEED leaves: the noun at 1, the verb at 2 and every other word as before (R115). -/
theorem Memory.read_seeded {m : Memory} (hm : m.wf) (noun verb : Int) :
    ((m.write 1 noun).write 2 verb).read 1 = noun ∧ ((m.write 1 noun).write 2 verb).read 2 = verb ∧
      ∀ x : Nat, x ≠ 1 → x ≠ 2 → ((m.write 1 noun).write 2 verb).read x = m.read x := by
  have hread (x : Nat) :
      ((m.write 1 noun).write 2 verb).read x = if x = 2 then verb else if x = 1 then noun else m.read x := by
    rw [Memory.read_write _ (Memory.wf_write m hm 1 noun), Memory.read_write m hm]
  exact ⟨hread 1, hread 2, fun x h1 h2 => by rw [hread, if_neg h2, if_neg h1]⟩

/-- Settles O38, by the number of words there are to write to: none, the noun's alone, or both. -/
theorem seedWritesNounAndVerb : Obligations.SeedWritesNounAndVerb := by
  intro s noun verb hr hwf
  refine ⟨fun hs => hs.pc_eq_zero hr, ?_⟩
  rw [transact]
  rcases doSeed_cases noun verb s with ⟨hbusy, -⟩ | ⟨-, hN, h⟩ | ⟨-, hN, h⟩ | ⟨-, hN, h⟩
  · exact absurd hr hbusy
  · exact ⟨fun _ => h, fun _ => by omega, fun _ => by omega⟩
  · refine ⟨fun _ => by omega, fun _ => ?_, fun _ => by omega⟩
    exact ⟨_, h, rfl, rfl, rfl, rfl, rfl, rfl, hN, Memory.read_write_other s.mem 1 0 noun (by decide),
      Memory.read_write_same s.mem hwf 1 noun⟩
  · exact ⟨fun _ => by omega, fun _ => by omega, fun _ => ⟨_, h, rfl, Memory.read_seeded hwf noun verb⟩⟩

/-! #### What a run depends on (R130) -/

/-- A loaded block keeps nothing of what it was but the configuration (R114). -/
theorem State.loaded_congr {s s' : State} (hc : s.cfg = s'.cfg) (image : List Int) : s.loaded image = s'.loaded image := by
  rw [State.loaded, State.loaded, hc]

/-- The host's run begins with a LOAD, and it sees the block through what that LOAD gives (R121). -/
theorem driverRun_congr {s s' : State} {image : List Int} (h : transact (.load image) s = transact (.load image) s')
    (seed : Option (Int × Int)) : driverRun image seed s = driverRun image seed s' := by
  rw [driverRun, driverRun, h]

/-- Settles O51. -/
theorem runDependsOnImageSeedAndConfiguration : Obligations.RunDependsOnImageSeedAndConfiguration := by
  refine ⟨fun s s' image seed hc hr hr' hfit => ?run, fun s n => doStatus_state n s⟩
  case run =>
    have hload : transact (.load image) s = (.ok, s.loaded image) := transact_load_fits hr hfit
    have hload' : transact (.load image) s' = (.ok, s.loaded image) := by
      rw [transact_load_fits hr' (hc ▸ hfit), State.loaded_congr hc]
    exact ⟨⟨s.loaded image, hload, hload'⟩, driverRun_congr (hload.trans hload'.symm) seed⟩

/-! #### RESET, START and READ; and BUSY (R111, R117, R118, R120) -/

/-- Settles O35: N is 0 after RESET, so no address is in bounds. -/
theorem resetSetsEveryField : Obligations.ResetSetsEveryField := by
  rintro s t rfl
  refine ⟨rfl, rfl, rfl, rfl, rfl, rfl, rfl, rfl, fun addr acc => State.memRead_outOfBounds ?_ acc⟩
  rw [State.not_inBounds_iff]
  exact lt_or_ge addr 0

/-- Settles O39. -/
theorem startRunsFromAddressZero : Obligations.StartRunsFromAddressZero :=
  fun _ hs hr => ⟨if_pos hr, hs.pc_eq_zero hr⟩

/-- READ of an address out of bounds, outside Running, responds BOUNDS and faults nothing (R118). -/
theorem transact_read_outOfBounds {s : State} {addr : Int} (hr : s.rs ≠ .running) (hb : ¬ s.inBounds addr) :
    transact (.read addr) s = (.bounds, s) := by
  rw [transact, doRead, if_neg hr, if_neg hb]

/-- Settles O40. -/
theorem readGivesTheWord : Obligations.ReadGivesTheWord := by
  intro s addr hadmit
  have hr := RunState.ne_running_iff.2 hadmit
  exact ⟨transact_read_inBounds hr, fun hout => transact_read_outOfBounds hr (State.not_inBounds_iff.2 hout)⟩

/-- Settles O42: each transaction checks the run state first. -/
theorem busyChangesNothing : Obligations.BusyChangesNothing :=
  fun _ _ _ _ _ => ⟨fun hr => ⟨if_pos hr, if_pos hr⟩, fun hr => ⟨if_neg hr, if_neg hr⟩⟩

end Sys2Proof.Machine
